-- ==== Sys2Proof/Config.lean ====
section
/-! DEFINITION. The parameters of the block (rule R8 of 00_scope.md): its position width, which every operation takes from the
state, and the one free value, the block cipher. -/

namespace Sys2Proof.Config

/-- `BLK` and `KEYB` (R8): bytes per counter, per keystream block and per key. -/
abbrev BLK : Nat := 16

/-- The width parameter of a part (R8, D3): `POSW` may be any multiple of 8 that is at least 8. It is held as `PB = POSW / 8`,
the bytes of a position-sized operand (R71). -/
structure Width where
  /-- `PB` (R71) -/
  pb : Nat
  /-- `POSW >= 8` -/
  one_le : 1 ≤ pb
deriving DecidableEq, Repr

/-- `POSW` (R8): bits of a position, length, count or offset. -/
def Width.posw (w : Width) : Nat := 8 * w.pb

/-- `POS_MAX` (R8, R28): the largest legal position. -/
def Width.posMax (w : Width) : Nat := 2 ^ (w.posw - 1) - 1

/-- The width of the part `GHLCTR-1/POSW64` (R2), the default (D3). -/
def partWidth : Width := { pb := 8, one_le := by decide }

/-- The type of a block cipher (R8): key and block to keystream, sixteen bytes each. -/
abbrev Cipher : Type := Vector (BitVec 8) BLK → Vector (BitVec 8) BLK → Vector (BitVec 8) BLK

/-- `E` (R8, R9, R100; D4, U1): the block cipher. A free value: total, a function of its two operands alone, and nothing
else is known of it (not that it is AES, not that it is a permutation). Log 2. -/
opaque E : Cipher

end Sys2Proof.Config
end

