-- ==== Sys2Proof/Word.lean ====
section
/-! DEFINITION. The byte types of the block (rule R10 of 00_scope.md). A position, length, count or offset is an integer: no rule
shifts, masks or wraps one (R121), and its width `POSW` is a parameter, kept by ranges (R28, R33, R52) and by the frames (R71, R80). -/

namespace Sys2Proof

/-- A byte (R10). -/
abbrev Byte : Type := BitVec 8

/-- `Bytes16` (R10): sixteen bytes, indexed `0 .. 15`; an array of bytes, not an integer (N12). -/
abbrev Bytes16 : Type := Vector Byte Config.BLK

end Sys2Proof
end

