-- ==== Sys2Proof/Machine/Bytes.lean ====
section
/-! DEFINITION. Byte order and width helpers: `val`, `bytes16`, `sext`, the bus word (rule R10 of 00_scope.md; R54 of 20_memory.md). -/

namespace Sys2Proof.Machine

/-- The little-endian value of a list of bytes: byte 0 is the least significant (R10, R54, R73). -/
def leVal : List Byte → Nat
  | [] => 0
  | b :: bs => b.toNat + 256 * leVal bs

/-- The `k` bytes of `v mod 256^k`, least significant first (R10, R73). -/
def leBytes : Nat → Nat → List Byte
  | 0, _ => []
  | k + 1, v => BitVec.ofNat 8 v :: leBytes k (v / 256)

theorem leBytes_length (k v : Nat) : (leBytes k v).length = k := by
  induction k generalizing v with
  | zero => rfl
  | succ k ih => simp [leBytes, ih]

/-- A list of sixteen bytes as a `Bytes16`. -/
def ofList16 (l : List Byte) (h : l.length = Config.BLK) : Bytes16 := ⟨⟨l⟩, h⟩

/-- `val(B)` (R10): the unsigned integer `sum of B[i] * 256^i`. -/
def val (B : Bytes16) : Nat := leVal B.toList

/-- `bytes16(v)` (R10): byte `i` is `floor(v / 256^i) mod 256`. -/
def bytes16 (v : Nat) : Bytes16 := ofList16 (leBytes Config.BLK v) (leBytes_length _ _)

/-- The 128-bit bus word of a `Bytes16` (R10, R82): byte `i` at bits `[8i+7 : 8i]`. -/
def busWord (B : Bytes16) : BitVec 128 := BitVec.ofNat 128 (val B)

/-- `sext_n(w)` (R10): the `n`-bit word `w` read as two's complement. -/
def sext (n w : Nat) : Int := if w < 2 ^ (n - 1) then (w : Int) else (w : Int) - 2 ^ n

/-- The `n`-bit two's complement pattern of an integer; `sext` undoes it. -/
def twos (n : Nat) (i : Int) : Nat := (i % 2 ^ n).toNat

end Sys2Proof.Machine
end

