-- ==== Sys2Proof/Syntax.lean ====
section
/-! DEFINITION. The twelve commands of the block (rule R75 of 30_encoding.md), with their operands as the mathematical values
that operand assembly gives them (rule R73). -/

namespace Sys2Proof

/-- The names of the twelve commands (R75). -/
inductive Cmd where
  | init | release | getlen | getpos | setpos | seekBegin | seekCur | seekEnd | read | write | setlen | flush
deriving DecidableEq, Repr

/-- The four frame formats (R71): no operand, one unsigned, one signed, initialise. -/
inductive Format where
  | N | U | O | I
deriving DecidableEq, Repr

/-- The seek origins (R72), which the document names and the spec numbers. -/
inductive Origin where
  | fromBegin | fromCurrent | fromEnd
deriving DecidableEq, Repr

/-- A command with its operands (R75). Unsigned operands are naturals, the signed offset an integer (R73);
`WellFormed.lean` says which of them a frame can carry. -/
inductive Instr where
  /-- `INIT key, iv, hdr, srclen` (R111) -/
  | init (key iv : Bytes16) (hdr srclen : Nat)
  /-- `RELEASE` (R112) -/
  | release
  /-- `GETLEN` (R113) -/
  | getlen
  /-- `GETPOS` (R114) -/
  | getpos
  /-- `SETPOS p` (R115) -/
  | setpos (p : Nat)
  /-- `SEEK.BEGIN off` (R116) -/
  | seekBegin (off : Int)
  /-- `SEEK.CUR off` (R117) -/
  | seekCur (off : Int)
  /-- `SEEK.END off` (R118) -/
  | seekEnd (off : Int)
  /-- `READ count` (R135) -/
  | read (count : Nat)
  /-- `WRITE count` (R150) -/
  | write (count : Nat)
  /-- `SETLEN length` (R151) -/
  | setlen (length : Nat)
  /-- `FLUSH` (R152) -/
  | flush
deriving DecidableEq, Repr

/-- Which of the twelve commands an instruction is. -/
def Instr.cmd : Instr → Cmd
  | .init _ _ _ _ => .init
  | .release => .release
  | .getlen => .getlen
  | .getpos => .getpos
  | .setpos _ => .setpos
  | .seekBegin _ => .seekBegin
  | .seekCur _ => .seekCur
  | .seekEnd _ => .seekEnd
  | .read _ => .read
  | .write _ => .write
  | .setlen _ => .setlen
  | .flush => .flush

/-- The pseudo-commands (R78). They have no encoding of their own. -/
inductive Pseudo where
  /-- `SEEK off, BEGIN`, `SEEK off, CURRENT`, `SEEK off, END` -/
  | seek (off : Int) (origin : Origin)
  /-- `REWIND` -/
  | rewind
  /-- `SKIP n` -/
  | skip (n : Int)
  /-- `TELL` -/
  | tell
deriving DecidableEq, Repr

end Sys2Proof
end

