-- ==== Sys2Proof/WellFormed.lean ====
section
/-! DEFINITION. Which operand values a frame can carry (rule R73 of 30_encoding.md): unsigned operands of `POSW` bits, signed
offsets of `POSW` bits. Range checks of the block itself (R110, R111) are not here: those operands are well formed and fault. -/

namespace Sys2Proof

/-- An unsigned `POSW`-bit value (R73). -/
def fitsUnsigned (w : Config.Width) (u : Nat) : Bool := decide (u < 2 ^ w.posw)

/-- A signed `POSW`-bit value (R73). -/
def fitsSigned (w : Config.Width) (off : Int) : Bool :=
  decide (-2 ^ (w.posw - 1) ≤ off ∧ off < 2 ^ (w.posw - 1))

/-- The instruction can be written as a frame of a part of this width. -/
def Instr.wellFormed (w : Config.Width) : Instr → Bool
  | .init _ _ hdr srclen => fitsUnsigned w hdr && fitsUnsigned w srclen
  | .release => true
  | .getlen => true
  | .getpos => true
  | .setpos p => fitsUnsigned w p
  | .seekBegin off => fitsSigned w off
  | .seekCur off => fitsSigned w off
  | .seekEnd off => fitsSigned w off
  | .read count => fitsUnsigned w count
  | .write count => fitsUnsigned w count
  | .setlen length => fitsUnsigned w length
  | .flush => true

end Sys2Proof
end

