-- ==== Sys2Proof/Decode.lean ====
section
/-! DEFINITION. Frames to commands and back (30_encoding.md, rules R70 to R76). Decoding is total on any bytes and rejects by name. -/

namespace Sys2Proof

open Machine

/-- Why bytes do not decode. -/
inductive DecodeError where
  /-- fewer bytes than the opcode's frame length have arrived (R74) -/
  | incomplete
  /-- the opcode byte is one of the 244 reserved values (R76) -/
  | reserved (op : Byte)
deriving DecidableEq, Repr

/-- The opcode map (R75): the exact value of byte 0 selects the command. -/
def opcodeTable : List (Byte × Cmd) :=
  [(0x01, .init), (0x02, .release), (0x10, .getlen), (0x11, .getpos), (0x12, .setpos), (0x20, .seekBegin),
   (0x21, .seekCur), (0x22, .seekEnd), (0x30, .read), (0x40, .write), (0x41, .setlen), (0x42, .flush)]

/-- The first command a table gives for an opcode byte. -/
def lookupOp (op : Byte) : List (Byte × Cmd) → Option Cmd
  | [] => none
  | (o, c) :: rest => if o = op then some c else lookupOp op rest

/-- The command an opcode byte selects; none where it is reserved (R75, R76). -/
def Cmd.ofOp (op : Byte) : Option Cmd := lookupOp op opcodeTable

/-- The opcode byte of a command (R75). -/
def Cmd.op : Cmd → Byte
  | .init => 0x01
  | .release => 0x02
  | .getlen => 0x10
  | .getpos => 0x11
  | .setpos => 0x12
  | .seekBegin => 0x20
  | .seekCur => 0x21
  | .seekEnd => 0x22
  | .read => 0x30
  | .write => 0x40
  | .setlen => 0x41
  | .flush => 0x42

/-- The format column of R75. -/
def Cmd.format : Cmd → Format
  | .init => .I
  | .release => .N
  | .getlen => .N
  | .getpos => .N
  | .setpos => .U
  | .seekBegin => .O
  | .seekCur => .O
  | .seekEnd => .O
  | .read => .U
  | .write => .U
  | .setlen => .U
  | .flush => .N

/-- `grp`, bits 7 to 4 of the opcode byte (R72). -/
def opGroup (op : Byte) : BitVec 4 := op.extractLsb' 4 4

/-- `fn`, bits 3 to 0 of the opcode byte (R72). -/
def opFn (op : Byte) : BitVec 4 := op.extractLsb' 0 4

/-- The seek origin numbered by `fn[1:0]` (R72); 3 has none. -/
def originOfFn (fn : BitVec 4) : Option Origin :=
  if fn.extractLsb' 0 2 = 0 then some .fromBegin
  else if fn.extractLsb' 0 2 = 1 then some .fromCurrent
  else if fn.extractLsb' 0 2 = 2 then some .fromEnd
  else none

/-- The length in bytes of a frame of each format (R71). -/
def Format.length (w : Config.Width) : Format → Nat
  | .N => 1
  | .U => 1 + w.pb
  | .O => 1 + w.pb
  | .I => 1 + 16 + 16 + w.pb + w.pb

/-- `framelen(op)` (R74): decided by the opcode byte alone; one byte for every reserved opcode. -/
def framelen (w : Config.Width) (op : Byte) : Nat :=
  match Cmd.ofOp op with
  | some c => c.format.length w
  | none => 1

/-- The longest frame of a part: `INIT`'s. -/
def maxFrame (w : Config.Width) : Nat := Format.length w .I

/-- Sixteen bytes of a frame from byte `start`, in index order (R73). -/
def frameBytes16 (f : List Byte) (start : Nat) : Bytes16 := Vector.ofFn fun i => f.getD (start + i) 0

/-- The unsigned `POSW`-bit operand at byte `start` of a frame (R73). -/
def frameU (w : Config.Width) (f : List Byte) (start : Nat) : Nat := leVal ((f.drop start).take w.pb)

/-- The signed `POSW`-bit operand at byte `start` of a frame (R73). -/
def frameO (w : Config.Width) (f : List Byte) (start : Nat) : Int := sext w.posw (frameU w f start)

/-- Operand assembly of a whole frame (R71, R73). -/
def assemble (w : Config.Width) (c : Cmd) (f : List Byte) : Instr :=
  match c with
  | .init => .init (frameBytes16 f 1) (frameBytes16 f 17) (frameU w f 33) (frameU w f (33 + w.pb))
  | .release => .release
  | .getlen => .getlen
  | .getpos => .getpos
  | .setpos => .setpos (frameU w f 1)
  | .seekBegin => .seekBegin (frameO w f 1)
  | .seekCur => .seekCur (frameO w f 1)
  | .seekEnd => .seekEnd (frameO w f 1)
  | .read => .read (frameU w f 1)
  | .write => .write (frameU w f 1)
  | .setlen => .setlen (frameU w f 1)
  | .flush => .flush

/-- Decode the first frame of a byte list, on a part of a given width: the command and the bytes after its frame (R70 to R76). -/
def decode (w : Config.Width) (bs : List Byte) : Except DecodeError (Instr × List Byte) :=
  match bs with
  | [] => .error .incomplete
  | op :: _ =>
    if bs.length < framelen w op then .error .incomplete
    else
      match Cmd.ofOp op with
      | none => .error (.reserved op)
      | some c => .ok (assemble w c (bs.take (framelen w op)), bs.drop (framelen w op))

/-- The operand bytes of a command's frame (R71, R73). -/
def encodeOperands (w : Config.Width) : Instr → List Byte
  | .init key iv hdr srclen => key.toList ++ iv.toList ++ leBytes w.pb hdr ++ leBytes w.pb srclen
  | .release => []
  | .getlen => []
  | .getpos => []
  | .setpos p => leBytes w.pb p
  | .seekBegin off => leBytes w.pb (twos w.posw off)
  | .seekCur off => leBytes w.pb (twos w.posw off)
  | .seekEnd off => leBytes w.pb (twos w.posw off)
  | .read count => leBytes w.pb count
  | .write count => leBytes w.pb count
  | .setlen length => leBytes w.pb length
  | .flush => []

/-- The frame of a command (R71, R75). -/
def encode (w : Config.Width) (i : Instr) : List Byte := i.cmd.op :: encodeOperands w i

/-- The bytes of a table word: bit 0 is the least significant bit of byte 0, `nbits` are whole bytes; the bytes above them are zero,
up to the longest frame. -/
def tableBytes (w : Config.Width) (nbits v : Nat) : List Byte :=
  (leBytes (nbits / 8) v ++ List.replicate (maxFrame w) 0).take (maxFrame w)

/-- The instruction the decoder reads from a word `v` of `spec/opcode_table.json`, on the part of R2. -/
def decodeTableWord (nbits v : Nat) : Option Instr :=
  match decode Config.partWidth (tableBytes Config.partWidth nbits v) with
  | .ok (i, _) => some i
  | .error _ => none

/-- The expansion of a pseudo-command (R78). -/
def Pseudo.expand : Pseudo → Instr
  | .seek off .fromBegin => .seekBegin off
  | .seek off .fromCurrent => .seekCur off
  | .seek off .fromEnd => .seekEnd off
  | .rewind => .seekBegin 0
  | .skip n => .seekCur n
  | .tell => .getpos

end Sys2Proof
end

