-- ==== Sys2Proof/Machine/Counter.lean ====
section
/-! DEFINITION. CounterState: the pure functions `Inc` and `Reset` on the little-endian 128-bit counter (40_counter.md). -/

namespace Sys2Proof.Machine

/-- The scan of R90: add one to the first byte, and go on to the next only while a byte overflows from `0xFF` to `0x00`. -/
def incBytes : List Byte → List Byte
  | [] => []
  | b :: bs => if b + 1 = 0 then (b + 1) :: incBytes bs else (b + 1) :: bs

theorem incBytes_length (l : List Byte) : (incBytes l).length = l.length := by
  induction l with
  | nil => rfl
  | cons b bs ih => unfold incBytes; split <;> simp [ih]

/-- `Inc(c)` (R90). Wraps silently at `2^128` (R189). -/
def counterInc (c : Bytes16) : Bytes16 :=
  ofList16 (incBytes c.toList) (by rw [incBytes_length]; simp)

/-- `Reset(iv, n)` (R93), by the equation R94 allows as its definition: `bytes16((val(iv) + n) mod 2^128)`.
DESIGN CHOICE (log 13) between two forms the spec states equal. -/
def counterReset (iv : Bytes16) (n : Nat) : Bytes16 := bytes16 ((val iv + n) % 2 ^ 128)

/-- `Reset` in the document's words (R93): copy `iv`, then apply `Inc` exactly `n` times. -/
def counterResetIter (iv : Bytes16) : Nat → Bytes16
  | 0 => iv
  | n + 1 => counterInc (counterResetIter iv n)

/-- The byte-wise addition loop of R94, from the carry into this byte. -/
def addBytes : List Byte → Nat → Nat → List Byte
  | [], _, _ => []
  | b :: bs, n, carry =>
    BitVec.ofNat 8 (b.toNat + n % 256 + carry) :: addBytes bs (n / 256) ((b.toNat + n % 256 + carry) / 256)

theorem addBytes_length (l : List Byte) (n c : Nat) : (addBytes l n c).length = l.length := by
  induction l generalizing n c with
  | nil => rfl
  | cons b bs ih => simp [addBytes, ih]

/-- `AddLE(iv, n)` (R94); the carry out of byte 15 is dropped. -/
def addLE (iv : Bytes16) (n : Nat) : Bytes16 :=
  ofList16 (addBytes iv.toList n 0) (by rw [addBytes_length]; simp)

end Sys2Proof.Machine
end

