-- ==== Sys2Proof/Machine/Memory.lean ====
section
/-! DEFINITION. What the byte source holds (rules R50, R53, R57 of 20_memory.md): bytes by physical address, in one canonical
form. The block only reads it (R51); `write` and `ofBytes` are for the source's owner. -/

namespace Sys2Proof.Machine

/-- The contents of a source: cells at strictly rising addresses, none holding the byte an unlisted address reads as. -/
abbrev Memory : Type := List Host.Cell

/-- What an unlisted address reads as. DESIGN CHOICE (log 5), unsafe: the spec puts no law on the source's bytes (R52). -/
def Memory.unlisted : Byte := 0

/-- The canonical form. -/
abbrev Memory.wf (m : Memory) : Prop :=
  m.Pairwise (fun a b => a.1 < b.1) ∧ ∀ c ∈ m, c.2 ≠ Memory.unlisted

/-- The byte at a physical address (R50). -/
def Memory.read : Memory → Nat → Byte
  | [], _ => Memory.unlisted
  | (k, b) :: m, a => if k = a then b else Memory.read m a

/-- Store one byte, keeping the canonical form: writing what an unlisted address reads as removes the entry. -/
def Memory.write : Memory → Nat → Byte → Memory
  | [], a, v => if v = Memory.unlisted then [] else [(a, v)]
  | (k, b) :: m, a, v =>
    if a < k then (if v = Memory.unlisted then (k, b) :: m else (a, v) :: (k, b) :: m)
    else if a = k then (if v = Memory.unlisted then m else (a, v) :: m)
    else (k, b) :: Memory.write m a v

/-- The cells of a byte array that starts at physical address `a` (R53). -/
def Memory.ofBytes (a : Nat) : List Byte → Memory
  | [] => []
  | b :: bs => if b = Memory.unlisted then Memory.ofBytes (a + 1) bs else (a, b) :: Memory.ofBytes (a + 1) bs

/-- The `k` bytes from physical address `a` on, in increasing address order (R52). -/
def Memory.readBytes (m : Memory) (a : Nat) : Nat → List Byte
  | 0 => []
  | k + 1 => m.read a :: m.readBytes (a + 1) k

end Sys2Proof.Machine
end

