-- ==== Sys2Proof/Machine/State.lean ====
section
/-! DEFINITION. The state of the block (rule R20 of 10_state.md), of its ports, and the reasons a step can stop. -/

namespace Sys2Proof.Machine

/-- The status of a response (R160). -/
inductive Status where
  | ok | capabilityViolation | illegalCommand | notConfigured | alreadyConfigured | positionRange | configRange | sourceFault
deriving DecidableEq, Repr

/-- The answer to a source request (R52): `ok` with bytes, or `err` with a code and no bytes. -/
inductive SrcAnswer where
  | ok (data : List Byte)
  | err (code : Nat)
deriving DecidableEq, Repr

/-- What the environment does with one coming source request: answer it, or never answer (R52, R191, U2, U18). -/
inductive SrcReply where
  | answer (a : SrcAnswer)
  | silent
deriving DecidableEq, Repr

/-- The externally visible events (R13). -/
inductive Event where
  /-- a source request and its answer -/
  | src (addr n : Nat) (answer : SrcAnswer)
  /-- a cipher request and its answer -/
  | enc (key block ks : Bytes16)
  /-- a byte on the data-out port -/
  | out (b : Byte)
  /-- the response that ends a command -/
  | rsp (status : Status) (value : Nat)
deriving DecidableEq, Repr

/-- The byte source (environment, R50 to R53). Requests are answered by `script`, first entry first; when it is empty, by the
ideal source of R53 over `mem` and `phys`. Log 4, 6, 9. -/
structure Source where
  /-- `MEM` of R53 -/
  mem : Memory
  /-- `PHYS` of R53: how many bytes the ideal source holds -/
  phys : Nat
  /-- what the environment will do with the coming requests -/
  script : List SrcReply
deriving DecidableEq, Repr

/-- One thing that arrives at the block from outside. -/
inductive PortInput where
  /-- a byte of a command frame on the command port (R70) -/
  | byte (b : Byte)
  /-- the hardware reset input (R180); if it falls inside a command, after `k` events of that command (log 8) -/
  | reset (k : Nat)
  /-- the source's owner attaches, changes or releases the source (R59, R182, R185, R188; log 15) -/
  | source (src : Source)
  /-- the cipher engine never answers the request that is event `k` of the command just received (R191, U18); no effect where that
  event is none, or no cipher request (log 2) -/
  | cipherSilent (k : Nat)
deriving DecidableEq, Repr

/-- The eight elements of R20 that hold a value exactly while an instance exists (R29, R39). -/
structure Instance where
  /-- `KEY` (R21) -/
  key : Bytes16
  /-- `IV` (R22) -/
  iv : Bytes16
  /-- `HDR` (R23) -/
  hdr : Nat
  /-- `SRCLEN` (R24) -/
  srclen : Nat
  /-- `CTR` (R25) -/
  ctr : Bytes16
  /-- `KS` (R26) -/
  ks : Bytes16
  /-- `POS` (R28) -/
  pos : Nat
  /-- `FRESH` (R30) -/
  fresh : Bool
deriving DecidableEq, Repr

/-- A request that has been made on a port and not answered (R52, R100, R191). -/
inductive PortRequest where
  /-- `SrcRead(addr, n)` on the source port -/
  | source (addr n : Nat)
  /-- `Enc(key, block)` on the cipher port -/
  | cipher (key block : Bytes16)
deriving DecidableEq, Repr

/-- The whole state: the width of the part, which no step changes (R8; log 1), the block's nine elements (`CFG` is whether `inst`
is there, log 3), the request it waits on, and its ports. -/
structure State where
  /-- the parameter `POSW` of the part (R8) -/
  width : Config.Width
  /-- the instance, if one exists (R29) -/
  inst : Option Instance
  /-- the port request the block waits on without limit (R191, U18; log 2, 6) -/
  pending : Option PortRequest
  /-- what will arrive, oldest first; holds a partially received frame (R74, R180; log 7) -/
  input : List PortInput
  /-- the byte source behind the source port (R50) -/
  source : Source
  /-- the events so far, oldest first (R13; log 10) -/
  events : List Event
deriving DecidableEq, Repr

/-- Why a step stops. Both are waits without limit that the spec describes; neither is a fault response of the block, which is
a next state. -/
inductive Fault where
  /-- raised by `step`: no complete frame has arrived, and the block waits (R74, U19). Safe. -/
  | awaitingFrame
  /-- raised by `step`: a source or cipher request was never answered, and no reset is to come: no frame is accepted until then
  (R191, U18; log 6). Safe. -/
  | awaitingAnswer
deriving DecidableEq, Repr

/-- What the model does not give a meaning. -/
inductive Refusal where
  /-- raised by an arm of `exec` whose instruction has no meaning yet; no arm raises it. Safe. -/
  | notModelled (mnemonic : String)
deriving DecidableEq, Repr

/-- A source that holds nothing and has no scripted answer (log 9). -/
def Source.empty : Source := { mem := [], phys := 0, script := [] }

/-- A part of a given width right after hardware reset (R39, R180): `CFG = 0`, the other eight elements hold no value, nothing has
been received. -/
def State.resetAt (w : Config.Width) : State :=
  { width := w, inst := none, pending := none, input := [], source := Source.empty, events := [] }

/-- The part of R2 right after hardware reset. -/
def State.reset : State := State.resetAt Config.partWidth

/-- `CFG` (R29): an instance exists. -/
def State.cfg (s : State) : Bool := s.inst.isSome

end Sys2Proof.Machine
end

