-- ==== Sys2Proof/Machine/Flags.lean ====
section
/-! DEFINITION. Flags and codes: the lag and the crossing test (R31, R34, R134), the status codes (R160), the response frame (R80). -/

namespace Sys2Proof.Machine

/-- `lag` (R31): `CTR` belongs to the block before the one that contains `POS`. -/
def lag (x : Instance) : Nat :=
  if x.pos % Config.BLK = 0 ∧ 0 < x.pos ∧ x.fresh = false then 1 else 0

/-- The block-crossing test of `BYTE.MIX` (R134). -/
def crosses (x : Instance) : Bool :=
  decide (x.pos % Config.BLK = 0) && decide (0 < x.pos) && !x.fresh

/-- The block index `floor(p / 16)` (R14). -/
def blockIndex (p : Nat) : Nat := p / Config.BLK

/-- `LAG` of R34 (a) after a `BYTE.MIX` at position `p`. -/
def lagAfterMix (p : Nat) : Bool := decide ((p + 1) % Config.BLK = 0)

/-- `KSBLK` of R34 (b): the block that `KS` belongs to. -/
def keystreamBlock (x : Instance) : Nat := blockIndex x.pos - lag x

/-- The status byte (R160). -/
def Status.code : Status → Byte
  | .ok => 0
  | .capabilityViolation => 1
  | .illegalCommand => 2
  | .notConfigured => 3
  | .alreadyConfigured => 4
  | .positionRange => 5
  | .configRange => 6
  | .sourceFault => 7

/-- The response frame (R80): status byte, then the value in `PB` bytes, little-endian. -/
def responseFrame (w : Config.Width) (st : Status) (value : Nat) : List Byte :=
  st.code :: leBytes w.pb value

end Sys2Proof.Machine
end

