-- ==== Sys2Proof/Machine/Operands.lean ====
section
/-! DEFINITION. What the operands of a command come to: `LEN`, the seek targets, the clamp, the physical address, and the range
checks. All arithmetic is over the mathematical integers (rule R121 of 42_stream_control.md). -/

namespace Sys2Proof.Machine

/-- `LEN = SRCLEN - HDR` (R27). In states that no run reaches, with `HDR > SRCLEN`, it is 0 (log 12). -/
def len (x : Instance) : Nat := x.srclen - x.hdr

/-- The target of a seek (R116 to R118): an integer of any sign and size. -/
def seekTarget (x : Instance) (origin : Origin) (off : Int) : Int :=
  match origin with
  | .fromBegin => off
  | .fromCurrent => (x.pos : Int) + off
  | .fromEnd => (len x : Int) + off

/-- A legal position (R28, R110). -/
def legalPosition (w : Config.Width) (t : Int) : Bool := decide (0 ≤ t) && decide (t ≤ (w.posMax : Int))

/-- The range check of `INIT` (R111, R167). -/
def legalConfig (w : Config.Width) (hdr srclen : Nat) : Bool := decide (hdr ≤ srclen) && decide (srclen ≤ w.posMax)

/-- `clamp(count)` (R131). -/
def clamp (x : Instance) (count : Nat) : Nat :=
  if len x ≤ x.pos then 0 else min count (len x - x.pos)

/-- `phys(p) = p + HDR` (R58). -/
def physAddr (x : Instance) (p : Nat) : Nat := p + x.hdr

end Sys2Proof.Machine
end

