-- ==== Sys2Proof/Machine/Ops.lean ====
section
/-! DEFINITION. The primitives of rule R12, the micro-operations, and the procedure `SetPosition`. The cipher is an argument
(R8: a parameter the model takes), so that each operation can be read, tested and claimed for every cipher; the commands use
`Config.E`. -/

namespace Sys2Proof.Machine

open Config (Cipher)

/-! Responses and faults (R12, R80, R165). -/

/-- Put events on the ports, in order (R13). -/
def emit (es : List Event) (s : State) : State := { s with events := s.events ++ es }

/-- `respond(status, value)` (R12): the response that ends a command. -/
def respond (st : Status) (value : Nat) (s : State) : State := emit [.rsp st value] s

/-- `fault F(value)` (R12, R165, R173), the one way any command faults: a response, and no state element written, no mode
changed, control transferred nowhere. There is no return from it: the block is at once ready for the next command. -/
def takeFault (st : Status) (value : Nat) (s : State) : State := respond st value s

/-- The check `if CFG = 0 then fault NotConfigured(0)` (R163), and the rest of the command otherwise. -/
def whenConfigured (s : State) (body : Instance → State) : State :=
  match s.inst with
  | none => takeFault .notConfigured 0 s
  | some x => body x

/-! The source port (R52, R53). -/

/-- The answer of the ideal source (R53). -/
def idealData (src : Source) (addr n : Nat) : List Byte :=
  src.mem.readBytes addr (min n (src.phys - addr))

/-- An answer held to the contract of R52: `len(data) <= n`, and a code that is a `POSW`-bit word other than 0 (log 4). -/
def boundAnswer (w : Config.Width) (n : Nat) : SrcAnswer → SrcAnswer
  | .ok data => .ok (data.take n)
  | .err code => .err (max 1 (min code (2 ^ w.posw - 1)))

/-- `SrcRead(addr, n)` (R52): the answer, none if it never comes (R191), and the source after the request. -/
def srcRead (w : Config.Width) (addr n : Nat) (src : Source) : Option SrcAnswer × Source :=
  match src.script with
  | [] => (some (.ok (idealData src addr n)), src)
  | .silent :: rest => (none, { src with script := rest })
  | .answer a :: rest => (some (boundAnswer w n a), { src with script := rest })

/-! The counter and the keystream cache. -/

/-- `CTR.INC` (R92). -/
def ctrInc (x : Instance) : Instance := { x with ctr := counterInc x.ctr }

/-- `CTR.RESET(p)` (R95): from `IV` and `p` alone. -/
def ctrReset (x : Instance) (p : Nat) : Instance := { x with ctr := counterReset x.iv (blockIndex p) }

/-- `KS.REFILL` (R101): one cipher request `Enc(KEY, CTR)` (R100); all of `KS` is replaced. -/
def ksRefill (E : Cipher) (x : Instance) : Instance × List Event :=
  ({ x with ks := E x.key x.ctr }, [.enc x.key x.ctr (E x.key x.ctr)])

/-- The body of `SetPosition(t)` for a legal `t` (R110): `POS`, `CTR.RESET`, `KS.REFILL`, `FRESH`. -/
def placeAt (E : Cipher) (x : Instance) (t : Nat) : Instance × List Event :=
  let r := ksRefill E (ctrReset { x with pos := t } t)
  ({ r.1 with fresh := true }, r.2)

/-- A position-setting command on a live instance (R110, R115 to R118): `SetPosition(t)`, which faults `PositionRange(0)` outside
`0 .. POS_MAX`, then `respond(OK, POS)`. -/
def setPosition (E : Cipher) (x : Instance) (t : Int) (s : State) : State :=
  if legalPosition s.width t then
    let r := placeAt E x t.toNat
    respond .ok r.1.pos (emit r.2 { s with inst := some r.1 })
  else takeFault .positionRange 0 s

/-! The mixer. -/

/-- The crossing part of `BYTE.MIX` (R134, R102 (c)): `CTR.INC` then `KS.REFILL`. -/
def crossBlock (E : Cipher) (x : Instance) : Instance × List Event :=
  if crosses x then ksRefill E (ctrInc x) else (x, [])

/-- `KS[POS mod 16]` (R26, R134). -/
def keystreamByte (x : Instance) : Byte := x.ks[x.pos % 16]'(Nat.mod_lt _ (by decide))

/-- `BYTE.MIX(s)` (R134, R136): cross if the test says so, then mix, emit, advance, and clear `FRESH`. -/
def byteMix (E : Cipher) (x : Instance) (b : Byte) : Instance × List Event :=
  let r := crossBlock E x
  ({ r.1 with pos := r.1.pos + 1, fresh := false }, r.2 ++ [.out (b ^^^ keystreamByte r.1)])

/-- The walk of `READ` over the bytes it obtained, one at a time, in address order (R135). -/
def mixAll (E : Cipher) (x : Instance) : List Byte → Instance × List Event
  | [] => (x, [])
  | b :: bs =>
    let r := byteMix E x b
    let q := mixAll E r.1 bs
    (q.1, r.2 ++ q.2)

/-! Hardware reset (R180). -/

/-- The hardware reset input (R39, R180): `CFG <- 0`, the other eight elements hold no value, no request is waited on. -/
def hardwareReset (s : State) : State := { s with inst := none, pending := none }

end Sys2Proof.Machine
end

