-- ==== Sys2Proof/Machine/Lifecycle.lean ====
section
/-! DEFINITION. `INIT` and `RELEASE` (rules R111, R112 of 42_stream_control.md). -/

namespace Sys2Proof.Machine

open Config (Cipher)

/-- The instance `INIT` loads before it sets the position; `CTR`, `KS`, `POS` and `FRESH` are all written by `SetPosition(0)`. -/
def loadInstance (E : Cipher) (key iv : Bytes16) (hdr srclen : Nat) : Instance × List Event :=
  placeAt E
    { key := key, iv := iv, hdr := hdr, srclen := srclen, ctr := iv, ks := iv, pos := 0, fresh := true } 0

/-- `INIT` (R111). -/
def initWith (E : Cipher) (key iv : Bytes16) (hdr srclen : Nat) (s : State) : State :=
  match s.inst with
  | some _ => takeFault .alreadyConfigured 0 s
  | none =>
    if legalConfig s.width hdr srclen then
      let r := loadInstance E key iv hdr srclen
      respond .ok 0 (emit r.2 { s with inst := some r.1 })
    else takeFault .configRange 0 s

/-- `INIT key, iv, hdr, srclen` (R111). -/
def execInit (key iv : Bytes16) (hdr srclen : Nat) (s : State) : Host.Outcome State Fault Refusal :=
  .next (initWith Config.E key iv hdr srclen s)

/-- `RELEASE` (R112): `CFG <- 0`, and the other eight elements hold no value. -/
def execRelease (s : State) : Host.Outcome State Fault Refusal :=
  .next (whenConfigured s fun _ => respond .ok 0 { s with inst := none })

end Sys2Proof.Machine
end

