-- ==== Sys2Proof/Machine/Position.lean ====
section
/-! DEFINITION. The queries and the position-setting commands (rules R113 to R118 of 42_stream_control.md). -/

namespace Sys2Proof.Machine

open Config (Cipher)

/-- `GETLEN` (R113). -/
def execGetlen (s : State) : Host.Outcome State Fault Refusal :=
  .next (whenConfigured s fun x => respond .ok (len x) s)

/-- `GETPOS` (R114). -/
def execGetpos (s : State) : Host.Outcome State Fault Refusal :=
  .next (whenConfigured s fun x => respond .ok x.pos s)

/-- `SETPOS p` with the cipher as an argument (R115). -/
def setposWith (E : Cipher) (p : Nat) (s : State) : State :=
  whenConfigured s fun x => setPosition E x p s

/-- `SEEK.* off` with the cipher as an argument (R116 to R118). -/
def seekWith (E : Cipher) (origin : Origin) (off : Int) (s : State) : State :=
  whenConfigured s fun x => setPosition E x (seekTarget x origin off) s

/-- `SETPOS p` (R115). -/
def execSetpos (p : Nat) (s : State) : Host.Outcome State Fault Refusal :=
  .next (setposWith Config.E p s)

/-- `SEEK.BEGIN off` (R116). -/
def execSeekBegin (off : Int) (s : State) : Host.Outcome State Fault Refusal :=
  .next (seekWith Config.E .fromBegin off s)

/-- `SEEK.CUR off` (R117). -/
def execSeekCur (off : Int) (s : State) : Host.Outcome State Fault Refusal :=
  .next (seekWith Config.E .fromCurrent off s)

/-- `SEEK.END off` (R118). -/
def execSeekEnd (off : Int) (s : State) : Host.Outcome State Fault Refusal :=
  .next (seekWith Config.E .fromEnd off s)

end Sys2Proof.Machine
end

