-- ==== Sys2Proof/Machine/Read.lean ====
section
/-! DEFINITION. `READ` (rules R130 to R137 of 43_read_mixer.md). -/

namespace Sys2Proof.Machine

open Config (Cipher)

/-- The source request of a `READ` whose clamped count is `n` (R133), and the source after it. -/
def readFetch (x : Instance) (n : Nat) (s : State) : Option SrcAnswer × Source :=
  srcRead s.width (physAddr x x.pos) n s.source

/-- `READ` once its source request has been made (R133, R135, R137): the answer decides. A request that is never answered leaves
the block waiting, with no response (R191). -/
def readAnswered (E : Cipher) (x : Instance) (n : Nat) (s : State) : Option SrcAnswer → State
  | none => { s with pending := some (.source (physAddr x x.pos) n) }
  | some (.err code) =>
    takeFault .sourceFault code (emit [.src (physAddr x x.pos) n (.err code)] s)
  | some (.ok data) =>
    let r := mixAll E x data
    respond .ok data.length
      (emit (.src (physAddr x x.pos) n (.ok data) :: r.2) { s with inst := some r.1 })

/-- `READ count` on a live instance (R132, R135). -/
def readInstance (E : Cipher) (x : Instance) (count : Nat) (s : State) : State :=
  if clamp x count = 0 then respond .ok 0 s
  else
    let r := readFetch x (clamp x count) s
    readAnswered E x (clamp x count) { s with source := r.2 } r.1

/-- `READ count` with the cipher as an argument (R135). -/
def readWith (E : Cipher) (count : Nat) (s : State) : State :=
  whenConfigured s fun x => readInstance E x count s

/-- `READ count` (R135). -/
def execRead (count : Nat) (s : State) : Host.Outcome State Fault Refusal :=
  .next (readWith Config.E count s)

end Sys2Proof.Machine
end

