-- ==== Sys2Proof/Machine/Unsupported.lean ====
section
/-! DEFINITION. The write-class commands and the reserved opcodes (rules R150 to R154 of 44_unsupported.md): they fault in every
state, and the fault is a response. -/

namespace Sys2Proof.Machine

/-- `WRITE count` (R150): the count is ignored, there is no data phase. -/
def execWrite (_count : Nat) (s : State) : Host.Outcome State Fault Refusal :=
  .next (takeFault .capabilityViolation 0 s)

/-- `SETLEN length` (R151): the length is ignored. -/
def execSetlen (_length : Nat) (s : State) : Host.Outcome State Fault Refusal :=
  .next (takeFault .capabilityViolation 0 s)

/-- `FLUSH` (R152): `KS` is neither refilled nor invalidated. -/
def execFlush (s : State) : Host.Outcome State Fault Refusal :=
  .next (takeFault .capabilityViolation 0 s)

/-- A reserved opcode (R154, R162). -/
def illegalCommand (s : State) : Host.Outcome State Fault Refusal :=
  .next (takeFault .illegalCommand 0 s)

end Sys2Proof.Machine
end

