-- ==== Sys2Proof/Machine/Dispatch.lean ====
section
/-! DEFINITION. One arm per command (rule R75 of 30_encoding.md). -/

namespace Sys2Proof.Machine

def exec (i : Instr) (s : State) : Host.Outcome State Fault Refusal :=
  match i with
  | .init key iv hdr srclen => Sys2Proof.Machine.execInit key iv hdr srclen s
  | .release => Sys2Proof.Machine.execRelease s
  | .getlen => Sys2Proof.Machine.execGetlen s
  | .getpos => Sys2Proof.Machine.execGetpos s
  | .setpos p => Sys2Proof.Machine.execSetpos p s
  | .seekBegin off => Sys2Proof.Machine.execSeekBegin off s
  | .seekCur off => Sys2Proof.Machine.execSeekCur off s
  | .seekEnd off => Sys2Proof.Machine.execSeekEnd off s
  | .read count => Sys2Proof.Machine.execRead count s
  | .write count => Sys2Proof.Machine.execWrite count s
  | .setlen length => Sys2Proof.Machine.execSetlen length s
  | .flush => Sys2Proof.Machine.execFlush s

end Sys2Proof.Machine
end

