-- ==== Sys2Proof/Machine/Frame.lean ====
section
/-! DEFINITION. How frames arrive and run: collecting a frame from the inputs (rule R74 of 30_encoding.md), running it, and the
hardware reset input, between commands and inside one (rule R180 of 70_reset_and_hazards.md). -/

namespace Sys2Proof.Machine

/-- What the next input is. -/
inductive Fetched where
  /-- a whole frame has arrived, and these inputs follow -/
  | frame (bytes : List Byte) (rest : List PortInput)
  /-- the reset input comes first; a partial frame before it is gone -/
  | reset (rest : List PortInput)
  /-- the source changes first; the bytes of a partial frame are still there -/
  | attach (src : Source) (rest : List PortInput)
  /-- a partial frame, or nothing -/
  | waiting
deriving DecidableEq, Repr

/-- Receive `k` more bytes of a frame of which `got` have arrived (R74, R180). -/
def collect : Nat → List Byte → List PortInput → Fetched
  | 0, got, rest => .frame got rest
  | _ + 1, _, [] => .waiting
  | k + 1, got, .byte b :: rest => collect k (got ++ [b]) rest
  | _ + 1, _, .reset _ :: rest => .reset rest
  | _ + 1, got, .source src :: rest => .attach src (got.map .byte ++ rest)
  | k + 1, got, .cipherSilent _ :: rest => collect (k + 1) got rest

/-- The next frame, or whatever comes before it is complete. The opcode byte alone decides how many bytes it has (R74). -/
def fetch (w : Config.Width) : List PortInput → Fetched
  | [] => .waiting
  | .byte op :: rest => collect (framelen w op - 1) [op] rest
  | .reset _ :: rest => .reset rest
  | .source src :: rest => .attach src rest
  | .cipherSilent _ :: rest => fetch w rest

/-- Run a complete frame to its response: decode first (R170), then the command; a reserved opcode is `IllegalCommand` (R154). -/
def runFrame (bytes : List Byte) (s : State) : Host.Outcome State Fault Refusal :=
  match decode s.width bytes with
  | .ok (i, _) => exec i s
  | .error (.reserved _) => illegalCommand s
  | .error .incomplete => .fault .awaitingFrame

/-- The reset input inside a command (R180; log 8): the first `k` of the command's events have happened, none of the remaining
ones does, and no response is produced. The source has seen the command's request if that was among the first `k`. -/
def cutShort (before after : State) (k : Nat) (rest : List PortInput) : State :=
  { hardwareReset before with
    input := rest
    source := if k = 0 then before.source else after.source
    events := before.events ++ (after.events.drop before.events.length).take k }

/-- The cipher request that event `k` of a command is, if it is one. -/
def cipherRequest (before after : State) (k : Nat) : Option PortRequest :=
  match (after.events.drop before.events.length)[k]? with
  | some (.enc key block _) => some (.cipher key block)
  | _ => none

/-- A command whose cipher request, its event `k`, is never answered (R191, U18; log 2): the events before it have happened, and
the block waits. The transition is never completed: no state element is written. -/
def stalled (before after : State) (k : Nat) (q : PortRequest) (rest : List PortInput) : State :=
  { before with
    pending := some q
    input := rest
    source := if k = 0 then before.source else after.source
    events := before.events ++ (after.events.drop before.events.length).take k }

/-- A command, and what can keep it from its response: the reset input before its last event (a later one waits for the next
step), and a cipher engine that goes silent. -/
def interruptible (before : State) (result : Host.Outcome State Fault Refusal) : Host.Outcome State Fault Refusal :=
  match result, before.input with
  | .next after, .cipherSilent k :: rest =>
    match cipherRequest before after k with
    | some q => .next (stalled before after k q rest)
    | none => .next after
  | .next after, .reset k :: rest =>
    if k < after.events.length - before.events.length then .next (cutShort before after k rest) else .next after
  | r, _ => r

/-- What is left when a block that waits on a port request has accepted none of the bytes offered to it (R191): those up to the
next reset or change of the source are not accepted, and do not stay (log 6). -/
def afterOffered : List PortInput → List PortInput
  | [] => []
  | .byte _ :: rest => afterOffered rest
  | .cipherSilent _ :: rest => afterOffered rest
  | .reset k :: rest => .reset k :: rest
  | .source src :: rest => .source src :: rest

/-- One step of a block that waits on a port request: only the reset input ends the wait, whatever is offered before it
(R191, U18). With no such input to come the block is stuck. -/
def stepWaiting (s : State) : Host.Outcome State Fault Refusal :=
  match afterOffered s.input with
  | .reset _ :: rest => .next (hardwareReset { s with input := rest })
  | .source src :: rest => .next { s with source := src, input := rest }
  | _ => .fault .awaitingAnswer

/-- One step of a block that accepts a frame (R70, R172). -/
def stepReady (s : State) : Host.Outcome State Fault Refusal :=
  match fetch s.width s.input with
  | .frame bytes rest => interruptible { s with input := rest } (runFrame bytes { s with input := rest })
  | .reset rest => .next (hardwareReset { s with input := rest })
  | .attach src rest => .next { s with source := src, input := rest }
  | .waiting => .fault .awaitingFrame

/-- The bytes of the one frame a table word stands for. -/
def tableFrame (w : Config.Width) (nbits v : Nat) : List Byte :=
  match tableBytes w nbits v with
  | [] => []
  | op :: rest => (op :: rest).take (framelen w op)

end Sys2Proof.Machine
end

