-- ==== Sys2Proof/Machine/Step.lean ====
section
/-! DEFINITION. One step of the machine: one command from its frame to its response, or one event from outside. -/

namespace Sys2Proof.Machine

/-- One step (R11, R172): a complete frame runs as one atomic transition; hardware reset and changes of the source are steps of
their own. The block stops only where it waits without limit (R74, R191). -/
def step (s : State) : Host.Outcome State Fault Refusal :=
  match s.pending with
  | some _ => stepWaiting s
  | none => stepReady s

/-- `s` with the frame of a table word as the one thing that arrives, at a block that accepts frames (log 14). -/
def State.withFetchWord (s : State) (nbits w : Nat) : State :=
  { s with input := (tableFrame s.width nbits w).map .byte, pending := none }

end Sys2Proof.Machine
end

