-- ==== Sys2Proof/Machine/Assembler.lean ====
section
/-! DEFINITION. The text form of commands (rule R77 of 30_encoding.md) and the pseudo-commands in it (R78). It belongs to no state
and no step: it only says which command a line of the spec's programs stands for. Log 17. -/

namespace Sys2Proof.Machine

/-- What one line of a program is. -/
inductive Line where
  /-- nothing but spaces and a comment -/
  | blank
  /-- a command, or a pseudo-command already expanded -/
  | command (i : Instr)
  /-- none of R77's forms, or an operand that no frame carries -/
  | malformed
deriving DecidableEq, Repr

/-- The line without its comment, which starts with `;` (R77). -/
def dropComment : List Char → List Char
  | [] => []
  | c :: cs => if c = ';' then [] else c :: dropComment cs

/-- Cut at every `sep`. -/
def cutAt (sep : Char) : List Char → List (List Char)
  | [] => [[]]
  | c :: cs =>
    if c = sep then [] :: cutAt sep cs
    else
      match cutAt sep cs with
      | [] => [[c]]
      | p :: ps => (c :: p) :: ps

/-- Without the spaces around it. -/
def trimSpaces (cs : List Char) : List Char :=
  ((cs.dropWhile (· = ' ')).reverse.dropWhile (· = ' ')).reverse

/-- The value of a digit, up to `f`. -/
def digitValue (c : Char) : Option Nat :=
  if '0' ≤ c ∧ c ≤ '9' then some (c.toNat - '0'.toNat)
  else if 'a' ≤ c ∧ c ≤ 'f' then some (c.toNat - 'a'.toNat + 10)
  else if 'A' ≤ c ∧ c ≤ 'F' then some (c.toNat - 'A'.toNat + 10)
  else none

/-- Digits of a base after those already worth `acc`. -/
def digitsValue (base acc : Nat) : List Char → Option Nat
  | [] => some acc
  | c :: cs =>
    match digitValue c with
    | some d => if d < base then digitsValue base (acc * base + d) cs else none
    | none => none

/-- A decimal or `0x` hexadecimal integer (R77). -/
def readNat : List Char → Option Nat
  | [] => none
  | ['0', 'x'] => none
  | '0' :: 'x' :: ds => digitsValue 16 0 ds
  | ds => digitsValue 10 0 ds

/-- An offset, which may carry a leading `-` (R77). -/
def readInt : List Char → Option Int
  | '-' :: ds => (readNat ds).map fun n => -(n : Int)
  | ds => (readNat ds).map fun n => (n : Int)

/-- Pairs of hexadecimal digits as bytes, in the order written. -/
def readHexBytes : List Char → Option (List Byte)
  | [] => some []
  | [_] => none
  | hi :: lo :: cs =>
    match digitsValue 16 0 [hi, lo], readHexBytes cs with
    | some v, some bs => some (BitVec.ofNat 8 v :: bs)
    | _, _ => none

/-- 32 hexadecimal digits, byte 0 first (R77). -/
def readBytes16 (cs : List Char) : Option Bytes16 :=
  match readHexBytes cs with
  | some bs => if h : bs.length = Config.BLK then some (ofList16 bs h) else none
  | none => none

/-- The text after a name and `=`. -/
def afterName (name : String) (cs : List Char) : Option (List Char) :=
  if cs.take name.length = name.toList then some (cs.drop name.length) else none

/-- An origin as the pseudo-command `SEEK` spells it (R78). -/
def readOrigin (cs : List Char) : Option Origin :=
  if cs = "BEGIN".toList then some .fromBegin
  else if cs = "CURRENT".toList then some .fromCurrent
  else if cs = "END".toList then some .fromEnd
  else none

/-- A command with one unsigned operand. -/
def oneNat (f : Nat → Instr) : List (List Char) → Option Instr
  | [a] => (readNat a).map f
  | _ => none

/-- A command with one signed operand. -/
def oneInt (f : Int → Instr) : List (List Char) → Option Instr
  | [a] => (readInt a).map f
  | _ => none

/-- A command without operands. -/
def noOperand (i : Instr) : List (List Char) → Option Instr
  | [] => some i
  | _ => none

/-- The four named operands of `INIT` (R77). -/
def initOperands : List (List Char) → Option Instr
  | [k, v, h, l] => do
    let key ← readBytes16 (← afterName "key=" k)
    let iv ← readBytes16 (← afterName "iv=" v)
    let hdr ← readNat (← afterName "hdr=" h)
    let srclen ← readNat (← afterName "srclen=" l)
    return .init key iv hdr srclen
  | _ => none

/-- `SEEK off, ORIGIN` (R78). -/
def seekOperands : List (List Char) → Option Instr
  | [a, o] => do return (Pseudo.seek (← readInt a) (← readOrigin o)).expand
  | _ => none

/-- The mnemonics of R75 and R78, each with the reading of its operands. -/
def mnemonicTable : List (String × (List (List Char) → Option Instr)) :=
  [("INIT", initOperands), ("RELEASE", noOperand .release), ("GETLEN", noOperand .getlen), ("GETPOS", noOperand .getpos),
   ("SETPOS", oneNat .setpos), ("SEEK.BEGIN", oneInt .seekBegin), ("SEEK.CUR", oneInt .seekCur),
   ("SEEK.END", oneInt .seekEnd), ("READ", oneNat .read), ("WRITE", oneNat .write), ("SETLEN", oneNat .setlen),
   ("FLUSH", noOperand .flush), ("SEEK", seekOperands), ("REWIND", noOperand Pseudo.rewind.expand),
   ("SKIP", oneInt fun n => (Pseudo.skip n).expand), ("TELL", noOperand Pseudo.tell.expand)]

/-- The first reading a table gives for a mnemonic. -/
def lookupMnemonic (mn : List Char) :
    List (String × (List (List Char) → Option Instr)) → Option (List (List Char) → Option Instr)
  | [] => none
  | (name, f) :: rest => if name.toList = mn then some f else lookupMnemonic mn rest

/-- The operands after a mnemonic: none, or pieces between commas. -/
def operandPieces (cs : List Char) : List (List Char) :=
  if trimSpaces cs = [] then [] else (cutAt ',' cs).map trimSpaces

/-- One line of a program for a part of a given width (R77, R78). -/
def readLine (w : Config.Width) (text : List Char) : Line :=
  let cs := trimSpaces (dropComment text)
  if cs = [] then .blank
  else
    match lookupMnemonic (cs.takeWhile (· ≠ ' ')) mnemonicTable with
    | none => .malformed
    | some f =>
      match f (operandPieces (cs.dropWhile (· ≠ ' '))) with
      | some i => if i.wellFormed w then .command i else .malformed
      | none => .malformed

/-- The frame bytes of a whole program, line after line; none if some line is malformed. -/
def assembleProgram (w : Config.Width) : List (List Char) → Option (List Byte)
  | [] => some []
  | l :: ls =>
    match readLine w l, assembleProgram w ls with
    | .blank, some bs => some bs
    | .command i, some bs => some (encode w i ++ bs)
    | _, _ => none

end Sys2Proof.Machine
end

