-- ==== Sys2Proof/Safety.lean ====
section
/-! DEFINITION. The words that claims about the block are written in: the invariants of rules R31 to R33, the keystream of a
position (R138), the events of a command, and passes over a source (R140). -/

namespace Sys2Proof.Machine

open Config (Cipher)

/-! Events (R13). -/

/-- The bytes put on the data-out port (R81, R136). -/
def outBytes : List Event → List Byte
  | [] => []
  | .out b :: es => b :: outBytes es
  | .src _ _ _ :: es => outBytes es
  | .enc _ _ _ :: es => outBytes es
  | .rsp _ _ :: es => outBytes es

/-- How many cipher requests were made (R103). -/
def encCount : List Event → Nat
  | [] => 0
  | .enc _ _ _ :: es => encCount es + 1
  | .out _ :: es => encCount es
  | .src _ _ _ :: es => encCount es
  | .rsp _ _ :: es => encCount es

/-- How many responses were given (R80). -/
def rspCount : List Event → Nat
  | [] => 0
  | .rsp _ _ :: es => rspCount es + 1
  | .out _ :: es => rspCount es
  | .src _ _ _ :: es => rspCount es
  | .enc _ _ _ :: es => rspCount es

/-- The events of `t` that come after those of `s`. -/
def newEvents (s t : State) : List Event := t.events.drop s.events.length

/-- The state of `s` after a fault with status `st` and value `v` (R165): one response more, and nothing else. -/
def faulted (st : Status) (v : Nat) (s : State) : State := { s with events := s.events ++ [.rsp st v] }

/-! The keystream (R138). -/

/-- `E(KEY, Reset(IV, floor(i / 16)))[i mod 16]` (R138). -/
def keystreamAt (E : Cipher) (key iv : Bytes16) (i : Nat) : Byte :=
  (E key (bytes16 ((val iv + i / 16) % 2 ^ 128)))[i % 16]'(Nat.mod_lt _ (by decide))

/-- The instance after a position set to `t` (R110). -/
def positioned (E : Cipher) (x : Instance) (t : Nat) : Instance :=
  { x with
    pos := t
    ctr := bytes16 ((val x.iv + t / 16) % 2 ^ 128)
    ks := E x.key (bytes16 ((val x.iv + t / 16) % 2 ^ 128))
    fresh := true }

/-- The state after a position-setting command that succeeds (R110, R115): one cipher request, then the response. -/
def repositioned (s : State) (x : Instance) (t : Nat) : State :=
  { s with
    inst := some (positioned Config.E x t)
    events := s.events ++ [.enc x.key (positioned Config.E x t).ctr (positioned Config.E x t).ks,
      .rsp .ok t] }

/-- What the walk of a `READ` puts on the ports (R135): from position `p` on, a cipher request before a byte whose position is
a multiple of 16, unless `ready` says that the keystream of that block is there already, and then the mixed byte (R138). -/
def mixEvents (E : Cipher) (key iv : Bytes16) (p : Nat) (ready : Bool) : List Byte → List Event
  | [] => []
  | b :: bs =>
    (if p % 16 = 0 ∧ ready = false then
        [.enc key (bytes16 ((val iv + p / 16) % 2 ^ 128)) (E key (bytes16 ((val iv + p / 16) % 2 ^ 128)))]
      else []) ++ .out (b ^^^ keystreamAt E key iv p) :: mixEvents E key iv (p + 1) false bs

/-! Invariants. -/

/-- What holds of an instance that `INIT` loaded and commands have used. -/
structure Instance.Inv (E : Cipher) (w : Config.Width) (x : Instance) : Prop where
  /-- R33: `HDR <= SRCLEN` -/
  hdr_le : x.hdr ≤ x.srclen
  /-- R33: `SRCLEN <= POS_MAX` -/
  srclen_le : x.srclen ≤ w.posMax
  /-- R33: `POS <= POS_MAX` -/
  pos_le : x.pos ≤ w.posMax
  /-- R31: the counter is that of `POS`, less the lag -/
  counter : val x.ctr = (val x.iv + x.pos / 16 - lag x) % 2 ^ 128
  /-- R32: `KS = E(KEY, CTR)` -/
  keystream : x.ks = E x.key x.ctr
  /-- R134: position 0 can only be reached by a position set -/
  start_fresh : x.pos = 0 → x.fresh = true

/-- What holds of the whole state: the instance's invariant, a source request is waited on only by an instance, and the memory of the
source, now and as it will be attached, is in its canonical form. -/
structure State.Inv (s : State) : Prop where
  inst : ∀ x, s.inst = some x → x.Inv Config.E s.width
  pending : ∀ addr n, s.pending = some (.source addr n) → s.inst ≠ none
  memory : s.source.mem.wf
  inputs : ∀ src, PortInput.source src ∈ s.input → src.mem.wf

/-- What comes next keeps a command from its response in no way, where the command by itself goes from `s` to `t`: no reset input
before the last of its events (R180; log 8), and no cipher engine that goes silent on one of its requests (R191; log 2). -/
def undisturbed (s t : State) (rest : List PortInput) : Prop :=
  (∀ k r, rest = .reset k :: r → (newEvents s t).length ≤ k) ∧
  (∀ k r, rest = .cipherSilent k :: r → ∀ key block ks, (newEvents s t)[k]? ≠ some (.enc key block ks))

/-! What shows of a state (R30, R35). -/

/-- The elements of an instance that R35 leaves when `FRESH`, `CTR` and `KS` are taken away. -/
def Instance.shown (x : Instance) : Bytes16 × Bytes16 × Nat × Nat × Nat := (x.key, x.iv, x.hdr, x.srclen, x.pos)

/-- Two states that differ in `FRESH`, `CTR`, `KS` and in what has been seen and what will arrive, and in nothing else. -/
structure State.Alike (s t : State) : Prop where
  width : s.width = t.width
  inst : s.inst.map Instance.shown = t.inst.map Instance.shown
  pending : s.pending = t.pending
  source : s.source = t.source

/-- The responses among events, oldest first (R80). -/
def responses : List Event → List (Status × Nat)
  | [] => []
  | .rsp st v :: es => (st, v) :: responses es
  | .out _ :: es => responses es
  | .src _ _ _ :: es => responses es
  | .enc _ _ _ :: es => responses es

/-! Runs of commands (R103, R140). -/

/-- Run commands one after another, each to its response. A block that waits on a source request accepts no further one (R191). -/
def runCommands : List Instr → State → State
  | [], s => s
  | i :: is, s =>
    match s.pending, exec i s with
    | none, .next t => runCommands is t
    | _, _ => s

/-- The bytes a `READ count` at state `s` would obtain from the source (R133, R137): none where it makes no request. -/
def obtained (x : Instance) (count : Nat) (s : State) : List Byte :=
  if clamp x count = 0 then []
  else
    match (srcRead s.width (x.pos + x.hdr) (clamp x count) s.source).1 with
    | some (.ok data) => data
    | some (.err _) => []
    | none => []

/-- The number of cipher requests R103 gives a command: one for a successful `INIT` or position set, and for a `READ` that
transforms positions `a .. b`, `floor(b/16) - floor(a/16)` plus the lag. -/
def requestsDue (i : Instr) (s : State) : Nat :=
  match i, s.inst with
  | .init _ _ hdr srclen, none => if hdr ≤ srclen ∧ srclen ≤ s.width.posMax then 1 else 0
  | .setpos p, some _ => if p ≤ s.width.posMax then 1 else 0
  | .seekBegin off, some _ => if 0 ≤ off ∧ off ≤ s.width.posMax then 1 else 0
  | .seekCur off, some x => if 0 ≤ x.pos + off ∧ x.pos + off ≤ s.width.posMax then 1 else 0
  | .seekEnd off, some x => if 0 ≤ len x + off ∧ len x + off ≤ s.width.posMax then 1 else 0
  | .read count, some x =>
    if obtained x count s = [] then 0
    else (x.pos + (obtained x count s).length - 1) / 16 - x.pos / 16 + lag x
  | _, _ => 0

/-- The cipher requests due over a sequence of commands (R103). -/
def requestsDueAll : List Instr → State → Nat
  | [], _ => 0
  | i :: is, s => if s.pending = none then requestsDue i s + requestsDueAll is (runCommands [i] s) else 0

/-- The ideal source over a byte array (R53). -/
def Source.ofBytes (bytes : List Byte) : Source :=
  { mem := Memory.ofBytes 0 bytes, phys := bytes.length, script := [] }

/-- The output of `INIT key, iv, hdr, srclen = PHYS` and `READ n` over the ideal source of a byte array (R140, R187). -/
def streamPass (w : Config.Width) (key iv : Bytes16) (hdr : Nat) (bytes : List Byte) (n : Nat) : List Byte :=
  outBytes (runCommands [.init key iv hdr bytes.length, .read n] { State.resetAt w with source := Source.ofBytes bytes }).events

end Sys2Proof.Machine
end

