-- ==== Sys2Proof/Certificates/Slice0/Obligations.lean ====
section
/-! DEFINITION. The statements for the provers. Each docstring names the rule of the spec it formalises. -/

open Sys2Proof Sys2Proof.Machine

/-! Encoding (30_encoding.md). -/

/-- Decoding the frame of a well-formed command gives it back, on a part of any width, whatever bytes follow (R71, R73, R74, R75). -/
def Obligations.DecodeUndoesEncode : Prop :=
  ∀ (w : Config.Width) (i : Instr) (rest : List Byte), i.wellFormed w = true → decode w (encode w i ++ rest) = .ok (i, rest)

/-- Bytes that decode to a command are its frame followed by the rest, and the command is well formed (R73, R75). -/
def Obligations.EncodeUndoesDecode : Prop :=
  ∀ (w : Config.Width) (bs rest : List Byte) (i : Instr), decode w bs = .ok (i, rest) →
    bs = encode w i ++ rest ∧ i.wellFormed w = true

/-- Frames written out from R71 and R75, for the part of R2 and for one with `POSW = 16`, decode to the commands they stand for. -/
def Obligations.FramesOfTheSpecDecode : Prop :=
  decode Config.partWidth [0x02] = .ok (.release, []) ∧ decode Config.partWidth [0x10] = .ok (.getlen, []) ∧
  decode Config.partWidth [0x42] = .ok (.flush, []) ∧
  decode Config.partWidth [0x12, 0x0f, 0, 0, 0, 0, 0, 0, 0] = .ok (.setpos 15, []) ∧
  decode Config.partWidth [0x22, 0xd8, 0xff, 0xff, 0xff, 0xff, 0xff, 0xff, 0xff] = .ok (.seekEnd (-40), []) ∧
  decode Config.partWidth [0x30, 0x64, 0, 0, 0, 0, 0, 0, 0] = .ok (.read 100, []) ∧
  decode { pb := 2, one_le := by decide } [0x21, 0xfe, 0xff, 0x11] = .ok (.seekCur (-2), [0x11])

/-- Exactly the twelve opcode bytes of R75 select a command; the other 244 are reserved (R76). -/
def Obligations.ReservedOpcodesAreTheOthers : Prop :=
  (∀ op : Byte, Cmd.ofOp op = none ↔
    op ∉ [0x01, 0x02, 0x10, 0x11, 0x12, 0x20, 0x21, 0x22, 0x30, 0x40, 0x41, (0x42 : Byte)]) ∧
  ((List.range 256).filter fun n => (Cmd.ofOp (BitVec.ofNat 8 n)).isNone).length = 244 ∧
  ∀ (w : Config.Width) (op : Byte) (rest : List Byte), Cmd.ofOp op = none → decode w (op :: rest) = .error (.reserved op)

/-- R154: a reserved opcode is a frame of one byte that faults with `IllegalCommand` in every state and changes nothing. The one
thing that can come between it and its response, a reset input before its only event, is in `HardwareResetAtAnyPoint`. -/
def Obligations.ReservedOpcodeFaults : Prop :=
  ∀ (s : State) (op : Byte) (rest : List PortInput), Cmd.ofOp op = none → s.pending = none →
    s.input = .byte op :: rest → (∀ r, rest ≠ .reset 0 :: r) →
    step s = .next (faulted .illegalCommand 0 { s with input := rest })

/-- R74: the opcode byte alone decides the frame length, a partial frame waits with no effect and no response, and hardware
reset discards it. -/
def Obligations.FrameLengthIsTheOpcodes : Prop :=
  (∀ (w : Config.Width) (op : Byte), framelen w op =
    if op = 0x01 then 1 + 32 + 2 * w.pb
    else if op ∈ [0x12, 0x20, 0x21, 0x22, 0x30, 0x40, (0x41 : Byte)] then 1 + w.pb
    else 1) ∧
  (∀ (s : State) (op : Byte) (bs : List Byte), s.pending = none → bs.length + 1 < framelen s.width op →
    s.input = (op :: bs).map .byte → step s = .fault .awaitingFrame) ∧
  (∀ (s : State) (op : Byte) (bs : List Byte) (k : Nat) (rest : List PortInput), s.pending = none →
    bs.length + 1 < framelen s.width op → s.input = (op :: bs).map .byte ++ .reset k :: rest →
    step s = .next { s with inst := none, input := rest })

/-- A step of a ready block whose input begins with the frame of a command runs that command, on the state with the frame taken
from the input (R70, R172), whatever follows that does not come between the command and its response: also a reset input at or
beyond its last event, and a silent engine that it asks nothing of. What does come between is in `HardwareResetAtAnyPoint` and
`SilentCipherBlocks`. That the inputs say so by a number of events is the model's choice (log 2, 8). -/
def Obligations.StepRunsDecodedCommand : Prop :=
  ∀ (s t : State) (bs : List Byte) (i : Instr) (rest : List PortInput), s.pending = none →
    decode s.width bs = .ok (i, []) → s.input = bs.map .byte ++ rest → exec i { s with input := rest } = .next t →
    undisturbed s t rest → step s = exec i { s with input := rest }

/-- R78: the pseudo-commands expand as the table says, and `SETPOS p` and `SEEK.BEGIN p` do the same for every legal `p`. -/
def Obligations.PseudoCommandsExpand : Prop :=
  (∀ off : Int, (Pseudo.seek off .fromBegin).expand = .seekBegin off ∧ (Pseudo.seek off .fromCurrent).expand = .seekCur off ∧
    (Pseudo.seek off .fromEnd).expand = .seekEnd off ∧ (Pseudo.skip off).expand = .seekCur off) ∧
  Pseudo.rewind.expand = .seekBegin 0 ∧ Pseudo.tell.expand = .getpos ∧
  (∀ (s : State) (p : Nat), p ≤ s.width.posMax → exec (.setpos p) s = exec (.seekBegin p) s) ∧
  (∀ (s : State) (x : Instance) (w : Nat), s.inst = some x → 2 ^ (s.width.posw - 1) ≤ w → w < 2 ^ s.width.posw →
    exec (.setpos w) s = .next (faulted .positionRange 0 s) ∧
    exec (.seekBegin (sext s.width.posw w)) s = .next (faulted .positionRange 0 s))

/-- Lines written as R77 writes them, and the pseudo-commands of R78, read as the commands they stand for (log 17). -/
def Obligations.TextLinesReadAsCommands : Prop :=
  (∃ key iv : Bytes16, val key = 0x0f0e0d0c0b0a09080706050403020100 ∧ val iv = 0xff ∧
    readLine Config.partWidth
      "INIT key=000102030405060708090a0b0c0d0e0f, iv=ff000000000000000000000000000000, hdr=8, srclen=40".toList =
      .command (.init key iv 8 40)) ∧
  readLine Config.partWidth "SEEK -5, CURRENT".toList = .command (.seekCur (-5)) ∧
  readLine Config.partWidth "SEEK 0x21, BEGIN".toList = .command (.seekBegin 33) ∧
  readLine Config.partWidth "SEEK 0, END".toList = .command (.seekEnd 0) ∧
  readLine Config.partWidth "REWIND".toList = .command (.seekBegin 0) ∧
  readLine Config.partWidth "SKIP 16".toList = .command (.seekCur 16) ∧
  readLine Config.partWidth "TELL ; the position".toList = .command .getpos

/-- The response frame: status byte of R160, then the value in `PB` little-endian bytes (R80). -/
def Obligations.ResponseFrameCarriesStatusAndValue : Prop :=
  (∀ (w : Config.Width) (st : Status) (v : Nat), v < 2 ^ w.posw →
    ∃ vs, responseFrame w st v = st.code :: vs ∧ vs.length = w.pb ∧ leVal vs = v) ∧
  Status.ok.code = 0 ∧ Status.capabilityViolation.code = 1 ∧ Status.illegalCommand.code = 2 ∧
  Status.notConfigured.code = 3 ∧ Status.alreadyConfigured.code = 4 ∧ Status.positionRange.code = 5 ∧
  Status.configRange.code = 6 ∧ Status.sourceFault.code = 7

/-! The counter (40_counter.md) and its bytes (R10). -/

/-- `val` and `bytes16` are inverse, `val` is the little-endian sum, and byte `i` stands at bits `[8i+7 : 8i]` of the bus word
(R10, R54). -/
def Obligations.BytesAreLittleEndian : Prop :=
  (∀ B : Bytes16, bytes16 (val B) = B) ∧ (∀ v : Nat, v < 2 ^ 128 → val (bytes16 v) = v) ∧
  (∀ B : Bytes16, val B = ∑ i : Fin 16, (B[i]).toNat * 256 ^ i.val) ∧
  (∀ (B : Bytes16) (i : Fin 16), (busWord B).extractLsb' (8 * i.val) 8 = B[i])

/-- R90: `Inc` clears the leading `0xFF` bytes, adds one to the first other byte, and leaves the bytes above it; sixteen `0xFF`
become sixteen `0x00`. -/
def Obligations.IncCarriesOverLeadingOnes : Prop :=
  (∀ (B : Bytes16) (k : Fin 16), (∀ i : Fin 16, i < k → B[i] = 0xFF) → B[k] ≠ 0xFF →
    ∀ j : Fin 16, (counterInc B)[j] = if j < k then 0x00 else if j = k then B[j] + 1 else B[j]) ∧
  (∀ B : Bytes16, (∀ i : Fin 16, B[i] = 0xFF) → ∀ j : Fin 16, (counterInc B)[j] = 0x00)

/-- R91: `Inc` adds one modulo `2^128`, is a bijection, and its `2^128`-fold iterate is the identity. -/
def Obligations.IncAddsOneModulo : Prop :=
  (∀ c : Bytes16, val (counterInc c) = (val c + 1) % 2 ^ 128) ∧ Function.Bijective counterInc ∧
  ∀ n : Nat, n = 2 ^ 128 → ∀ c : Bytes16, counterInc^[n] c = c

/-- R94: `Reset(iv, n)` is `n` applications of `Inc`, is `bytes16((val(iv) + n) mod 2^128)`, and is `AddLE(iv, n mod 2^128)`. -/
def Obligations.ResetIsRepeatedIncAndAddition : Prop :=
  ∀ (iv : Bytes16) (n : Nat), counterReset iv n = counterResetIter iv n ∧
    counterReset iv n = bytes16 ((val iv + n) % 2 ^ 128) ∧ counterReset iv n = addLE iv (n % 2 ^ 128)

/-- R96, laws (a) to (e) of `Reset`. -/
def Obligations.ResetLaws : Prop :=
  (∀ iv : Bytes16, counterReset iv 0 = iv) ∧
  (∀ (iv : Bytes16) (n : Nat), counterReset iv (n + 1) = counterInc (counterReset iv n)) ∧
  (∀ (iv : Bytes16) (a b : Nat), counterReset (counterReset iv a) b = counterReset iv (a + b)) ∧
  (∀ (iv : Bytes16) (n : Nat), counterReset iv (n + 2 ^ 128) = counterReset iv n) ∧
  (∀ (iv : Bytes16) (m n : Nat), m < 2 ^ 128 → n < 2 ^ 128 → counterReset iv m = counterReset iv n → m = n)

/-! The position set and the commands that use it (42_stream_control.md). -/

/-- R110: `SetPosition(t)` for every cipher and every integer `t`: what it writes, the one cipher request, and the fault. -/
def Obligations.SetPositionResynchronises : Prop :=
  (∀ (E : Config.Cipher) (x : Instance) (t : Int) (s : State), 0 ≤ t → t ≤ (s.width.posMax : Int) →
    ∃ y : Instance, setPosition E x t s =
        { s with inst := some y, events := s.events ++ [.enc x.key y.ctr y.ks, .rsp .ok y.pos] } ∧
      y = { x with pos := y.pos, ctr := y.ctr, ks := y.ks, fresh := true } ∧ (y.pos : Int) = t ∧ lag y = 0 ∧
      val y.ctr = (val x.iv + t.toNat / 16) % 2 ^ 128 ∧ y.ks = E x.key y.ctr) ∧
  (∀ (E : Config.Cipher) (x : Instance) (t : Int) (s : State), (t < 0 ∨ (s.width.posMax : Int) < t) →
    setPosition E x t s = faulted .positionRange 0 s)

/-- R111: `INIT` in its three cases. -/
def Obligations.InitConstructsInstance : Prop :=
  (∀ (s : State) (key iv : Bytes16) (hdr srclen : Nat), s.inst = none → hdr ≤ srclen → srclen ≤ s.width.posMax →
    exec (.init key iv hdr srclen) s = .next { s with
      inst := some { key := key, iv := iv, hdr := hdr, srclen := srclen,
                     ctr := iv, ks := Config.E key iv, pos := 0, fresh := true }
      events := s.events ++ [.enc key iv (Config.E key iv), .rsp .ok 0] }) ∧
  (∀ (s : State) (x : Instance) (key iv : Bytes16) (hdr srclen : Nat), s.inst = some x →
    exec (.init key iv hdr srclen) s = .next (faulted .alreadyConfigured 0 s)) ∧
  (∀ (s : State) (key iv : Bytes16) (hdr srclen : Nat), s.inst = none → (srclen < hdr ∨ s.width.posMax < srclen) →
    exec (.init key iv hdr srclen) s = .next (faulted .configRange 0 s))

/-- R112: `RELEASE` in its two cases. -/
def Obligations.ReleaseDestroysInstance : Prop :=
  (∀ (s : State) (x : Instance), s.inst = some x →
    exec .release s = .next { s with inst := none, events := s.events ++ [.rsp .ok 0] }) ∧
  (∀ s : State, s.inst = none → exec .release s = .next (faulted .notConfigured 0 s))

/-- R113: `GETLEN` responds `SRCLEN - HDR`, which is in `0 .. POS_MAX`. The premises are part of the invariant. -/
def Obligations.GetlenRespondsLength : Prop :=
  (∀ (s : State) (x : Instance), s.inst = some x → x.hdr ≤ x.srclen →
    ∃ v : Nat, exec .getlen s = .next { s with events := s.events ++ [.rsp .ok v] } ∧
      (v : Int) = (x.srclen : Int) - x.hdr ∧ (x.srclen ≤ s.width.posMax → v ≤ s.width.posMax)) ∧
  (∀ s : State, s.inst = none → exec .getlen s = .next (faulted .notConfigured 0 s))

/-- R114: `GETPOS` responds `POS`. -/
def Obligations.GetposRespondsPosition : Prop :=
  (∀ (s : State) (x : Instance), s.inst = some x →
    exec .getpos s = .next { s with events := s.events ++ [.rsp .ok x.pos] }) ∧
  (∀ s : State, s.inst = none → exec .getpos s = .next (faulted .notConfigured 0 s))

/-- R115: `SETPOS p`. -/
def Obligations.SetposMovesCursor : Prop :=
  (∀ (s : State) (x : Instance) (p : Nat), s.inst = some x → p ≤ s.width.posMax →
    exec (.setpos p) s = .next (repositioned s x p)) ∧
  (∀ (s : State) (x : Instance) (p : Nat), s.inst = some x → s.width.posMax < p →
    exec (.setpos p) s = .next (faulted .positionRange 0 s)) ∧
  (∀ (s : State) (p : Nat), s.inst = none → exec (.setpos p) s = .next (faulted .notConfigured 0 s))

/-- R116: `SEEK.BEGIN off`. -/
def Obligations.SeekBeginMovesCursor : Prop :=
  (∀ (s : State) (x : Instance) (off : Int), s.inst = some x → 0 ≤ off → off ≤ (s.width.posMax : Int) →
    exec (.seekBegin off) s = .next (repositioned s x off.toNat)) ∧
  (∀ (s : State) (x : Instance) (off : Int), s.inst = some x → (off < 0 ∨ (s.width.posMax : Int) < off) →
    exec (.seekBegin off) s = .next (faulted .positionRange 0 s)) ∧
  (∀ (s : State) (off : Int), s.inst = none → exec (.seekBegin off) s = .next (faulted .notConfigured 0 s))

/-- R117: `SEEK.CUR off`; the sum is a mathematical integer, never taken modulo `2^POSW`. -/
def Obligations.SeekCurMovesCursor : Prop :=
  (∀ (s : State) (x : Instance) (off : Int), s.inst = some x → 0 ≤ (x.pos : Int) + off →
    (x.pos : Int) + off ≤ (s.width.posMax : Int) →
    exec (.seekCur off) s = .next (repositioned s x ((x.pos : Int) + off).toNat)) ∧
  (∀ (s : State) (x : Instance) (off : Int), s.inst = some x →
    ((x.pos : Int) + off < 0 ∨ (s.width.posMax : Int) < (x.pos : Int) + off) →
    exec (.seekCur off) s = .next (faulted .positionRange 0 s)) ∧
  (∀ (s : State) (off : Int), s.inst = none → exec (.seekCur off) s = .next (faulted .notConfigured 0 s))

/-- R118: `SEEK.END off`; the target is `(SRCLEN - HDR) + off`. The premise `HDR <= SRCLEN` is part of the invariant. -/
def Obligations.SeekEndMovesCursor : Prop :=
  (∀ (s : State) (x : Instance) (off : Int), s.inst = some x → x.hdr ≤ x.srclen →
    0 ≤ (x.srclen : Int) - x.hdr + off → (x.srclen : Int) - x.hdr + off ≤ (s.width.posMax : Int) →
    exec (.seekEnd off) s = .next (repositioned s x ((x.srclen : Int) - x.hdr + off).toNat)) ∧
  (∀ (s : State) (x : Instance) (off : Int), s.inst = some x → x.hdr ≤ x.srclen →
    ((x.srclen : Int) - x.hdr + off < 0 ∨ (s.width.posMax : Int) < (x.srclen : Int) - x.hdr + off) →
    exec (.seekEnd off) s = .next (faulted .positionRange 0 s)) ∧
  (∀ (s : State) (off : Int), s.inst = none → exec (.seekEnd off) s = .next (faulted .notConfigured 0 s))

/-- R181: `RELEASE` and hardware reset leave the same block, and the instance a later `INIT` makes depends on its operands alone. -/
def Obligations.ReleaseForgetsLikeReset : Prop :=
  (∀ (s : State) (x : Instance), s.inst = some x → ∃ t, exec .release s = .next t ∧ t.inst = (hardwareReset s).inst ∧
    t.cfg = false) ∧
  (∀ (s s' : State) (key iv : Bytes16) (hdr srclen : Nat), s.inst = none → s'.inst = none → s'.width = s.width → hdr ≤ srclen →
    srclen ≤ s.width.posMax → ∃ t t', exec (.init key iv hdr srclen) s = .next t ∧
      exec (.init key iv hdr srclen) s' = .next t' ∧ t.inst = t'.inst ∧ t.cfg = true)

/-! `READ` and the mixer (43_read_mixer.md, 20_memory.md). -/

/-- R131: the clamp, for an instance with `HDR <= SRCLEN`. -/
def Obligations.ClampStaysWithinLength : Prop :=
  ∀ (x : Instance) (count : Nat), x.hdr ≤ x.srclen →
    (x.srclen - x.hdr ≤ x.pos → clamp x count = 0) ∧
    (x.pos < x.srclen - x.hdr →
      clamp x count = min count (x.srclen - x.hdr - x.pos) ∧
      x.pos + clamp x count ≤ x.srclen - x.hdr) ∧ clamp x count ≤ count

/-- R132: an empty `READ` responds `(OK, 0)` at once and writes and asks nothing. -/
def Obligations.EmptyReadChangesNothing : Prop :=
  ∀ (s : State) (x : Instance) (count : Nat), s.inst = some x →
    (count = 0 ∨ x.srclen - x.hdr ≤ x.pos) →
    exec (.read count) s = .next { s with events := s.events ++ [.rsp .ok 0] }

/-- R134: `BYTE.MIX`, for every cipher and every instance. -/
def Obligations.ByteMixSteps : Prop :=
  ∀ (E : Config.Cipher) (x : Instance) (b : Byte),
    (x.pos % 16 = 0 ∧ 0 < x.pos ∧ x.fresh = false →
      ∃ y : Instance, y = { x with ctr := counterInc x.ctr, ks := E x.key (counterInc x.ctr), pos := y.pos, fresh := false } ∧
        y.pos = x.pos + 1 ∧
        byteMix E x b = (y, [.enc x.key y.ctr y.ks, .out (b ^^^ y.ks.toList.getD (x.pos % 16) 0)])) ∧
    (¬ (x.pos % 16 = 0 ∧ 0 < x.pos ∧ x.fresh = false) →
      ∃ y : Instance, y = { x with pos := y.pos, fresh := false } ∧ y.pos = x.pos + 1 ∧
        byteMix E x b = (y, [.out (b ^^^ x.ks.toList.getD (x.pos % 16) 0)]))

/-- R135, all cases of `READ`: no instance, empty, the source's error, and the bytes it answers with: the state after it, and
its events in order (one `Src`, then for each byte an `Enc` if it crosses and its `Out`, then the response). The case of a
request that is never answered is `SilentSourceBlocks`. -/
def Obligations.ReadMixesAndAdvances : Prop :=
  (∀ (s : State) (count : Nat), s.inst = none → exec (.read count) s = .next (faulted .notConfigured 0 s)) ∧
  (∀ (s : State) (x : Instance) (count : Nat), s.inst = some x → clamp x count = 0 →
    exec (.read count) s = .next { s with events := s.events ++ [.rsp .ok 0] }) ∧
  (∀ (s : State) (x : Instance) (count : Nat) (code : Nat), s.inst = some x → clamp x count ≠ 0 →
    (srcRead s.width (x.pos + x.hdr) (clamp x count) s.source).1 = some (.err code) →
    exec (.read count) s = .next { s with
      source := (srcRead s.width (x.pos + x.hdr) (clamp x count) s.source).2
      events := s.events ++ [.src (x.pos + x.hdr) (clamp x count) (.err code),
        .rsp .sourceFault code] }) ∧
  (∀ (s : State) (x : Instance) (count : Nat) (data : List Byte), s.Inv → s.inst = some x → clamp x count ≠ 0 →
    (srcRead s.width (x.pos + x.hdr) (clamp x count) s.source).1 = some (.ok data) →
    ∃ y : Instance, exec (.read count) s = .next { s with
        inst := some y
        source := (srcRead s.width (x.pos + x.hdr) (clamp x count) s.source).2
        events := s.events ++ (.src (x.pos + x.hdr) (clamp x count) (.ok data) ::
          (mixEvents Config.E x.key x.iv x.pos (lag x == 0) data ++ [.rsp .ok data.length])) } ∧
      data.length ≤ clamp x count ∧ (data = [] → y = x) ∧
      (data ≠ [] → y = { x with pos := y.pos, ctr := y.ctr, ks := y.ks, fresh := false } ∧
        y.pos = x.pos + data.length ∧
        val y.ctr = (val x.iv + (x.pos + data.length - 1) / 16) % 2 ^ 128 ∧ y.ks = Config.E x.key y.ctr))

/-- R138, the guarantee: in every state of the invariant, whatever came before and whatever `FRESH` is, a `READ` at position `i`
puts out, for the bytes the source answers with, `s XOR E(KEY, Reset(IV, floor(i/16)))[i mod 16]`. -/
def Obligations.OutputIsSourceXorKeystream : Prop :=
  ∀ (s : State) (x : Instance) (count : Nat) (data : List Byte), s.Inv → s.inst = some x → clamp x count ≠ 0 →
    (srcRead s.width (x.pos + x.hdr) (clamp x count) s.source).1 = some (.ok data) →
    ∃ t, exec (.read count) s = .next t ∧
      outBytes (newEvents s t) = data.mapIdx fun j b =>
        b ^^^ (Config.E x.key (counterReset x.iv ((x.pos + j) / 16))).toList.getD ((x.pos + j) % 16) 0

/-- R139: reading directly at `P` on a fresh instance gives what reading `0 .. P` and discarding the prefix gives, over the
ideal source of any byte array, with any header. -/
def Obligations.SeekInvariance : Prop :=
  ∀ (w : Config.Width) (key iv : Bytes16) (hdr : Nat) (bytes : List Byte) (P : Nat), bytes.length ≤ w.posMax →
    hdr + P < bytes.length →
    outBytes (runCommands [.init key iv hdr bytes.length, .setpos P, .read 1]
        { State.resetAt w with source := Source.ofBytes bytes }).events =
      (streamPass w key iv hdr bytes (P + 1)).drop P

/-- R140: two passes with the same key and IV give every buffer back, and a pass may cut the data into reads differently, or
seek, without changing the bytes. -/
def Obligations.RoundTrip : Prop :=
  (∀ (w : Config.Width) (key iv : Bytes16) (buffer : List Byte), buffer.length ≤ w.posMax →
    streamPass w key iv 0 (streamPass w key iv 0 buffer buffer.length) buffer.length = buffer) ∧
  (∀ (w : Config.Width) (key iv : Bytes16) (bytes : List Byte) (counts : List Nat), bytes.length ≤ w.posMax →
    counts.sum = bytes.length →
    outBytes (runCommands (.init key iv 0 bytes.length :: counts.map .read)
        { State.resetAt w with source := Source.ofBytes bytes }).events = streamPass w key iv 0 bytes bytes.length) ∧
  (∀ (w : Config.Width) (key iv : Bytes16) (bytes : List Byte) (P n : Nat), bytes.length ≤ w.posMax → P ≤ w.posMax →
    outBytes (runCommands [.init key iv 0 bytes.length, .seekBegin P, .read n]
        { State.resetAt w with source := Source.ofBytes bytes }).events =
      ((streamPass w key iv 0 bytes bytes.length).drop P).take n)

/-- R187 (from R138, R140): decrypting with `HDR` set to the length of a tag that stands before the ciphertext gives the
plaintext back. -/
def Obligations.RoundTripBehindTag : Prop :=
  ∀ (w : Config.Width) (key iv : Bytes16) (tag plain : List Byte), tag.length + plain.length ≤ w.posMax →
    streamPass w key iv tag.length (tag ++ streamPass w key iv 0 plain plain.length) plain.length = plain

/-- R53: the ideal source over a byte array answers with `MEM[addr .. addr+k-1]`, `k = min(n, max(0, PHYS - addr))`. -/
def Obligations.IdealSourceAnswers : Prop :=
  ∀ (w : Config.Width) (bytes : List Byte) (addr n : Nat),
    srcRead w addr n (Source.ofBytes bytes) = (some (.ok ((bytes.drop addr).take n)), Source.ofBytes bytes) ∧
    ((bytes.drop addr).take n).length = min n (bytes.length - addr)

/-- Every answer R52 allows can come, no other does, and the request changes nothing the source holds. -/
def Obligations.SourceAnswersWithinContract : Prop :=
  (∀ (w : Config.Width) (src : Source) (addr n : Nat) (data : List Byte) (rest : List SrcReply), data.length ≤ n →
    srcRead w addr n { src with script := .answer (.ok data) :: rest } = (some (.ok data), { src with script := rest })) ∧
  (∀ (w : Config.Width) (src : Source) (addr n code : Nat) (rest : List SrcReply), 0 < code → code < 2 ^ w.posw →
    srcRead w addr n { src with script := .answer (.err code) :: rest } = (some (.err code), { src with script := rest })) ∧
  (∀ (w : Config.Width) (src : Source) (addr n : Nat), (srcRead w addr n src).2.mem = src.mem ∧
    (srcRead w addr n src).2.phys = src.phys ∧
    (∀ data, (srcRead w addr n src).1 = some (.ok data) → data.length ≤ n) ∧
    ∀ code, (srcRead w addr n src).1 = some (.err code) → 0 < code ∧ code < 2 ^ w.posw)

/-- The model's reading of R191 and U18 (log 6): a request that is never answered leaves the `READ` without response or state
written; no byte offered is accepted from then on, however many are; hardware reset frees the block, whatever was offered before. -/
def Obligations.SilentSourceBlocks : Prop :=
  (∀ (s : State) (x : Instance) (count : Nat) (rest : List SrcReply), s.inst = some x → clamp x count ≠ 0 →
    s.source.script = .silent :: rest →
    exec (.read count) s = .next { s with
      pending := some (.source (x.pos + x.hdr) (clamp x count))
      source := { s.source with script := rest } }) ∧
  (∀ (s : State) (bs : List Byte), s.pending ≠ none → s.input = bs.map .byte → step s = .fault .awaitingAnswer) ∧
  (∀ (s : State) (bs : List Byte) (k : Nat) (rest : List PortInput), s.pending ≠ none →
    s.input = bs.map .byte ++ .reset k :: rest →
    step s = .next { s with inst := none, pending := none, input := rest })

/-- The model's reading of R191 and U18 for the cipher engine (log 2): where the request that is event `k` of a command is never
answered, the events before it have happened, there is no response, no state element is written, and the block waits until reset. -/
def Obligations.SilentCipherBlocks : Prop :=
  ∀ (s t : State) (bs : List Byte) (i : Instr) (k : Nat) (key block ks : Bytes16) (rest : List PortInput), s.pending = none →
    decode s.width bs = .ok (i, []) → s.input = bs.map .byte ++ .cipherSilent k :: rest →
    exec i { s with input := .cipherSilent k :: rest } = .next t → (newEvents s t)[k]? = some (.enc key block ks) →
    ∃ u, step s = .next u ∧ u.pending = some (.cipher key block) ∧ u.inst = s.inst ∧ u.input = rest ∧
      u.events = s.events ++ (newEvents s t).take k ∧ rspCount (newEvents s u) = 0 ∧
      u.source = if k = 0 then s.source else t.source

/-- R51, R50, R81: no command writes the source, and only `READ` makes a source request or puts out a byte. -/
def Obligations.BlockNeverWritesSource : Prop :=
  ∀ (i : Instr) (s : State), ∃ t, exec i s = .next t ∧ t.source.mem = s.source.mem ∧ t.source.phys = s.source.phys ∧
    (∀ a, t.source.mem.read a = s.source.mem.read a) ∧
    (i.cmd ≠ .read → t.source = s.source ∧ t.pending = s.pending ∧ outBytes (newEvents s t) = [] ∧
      ∀ addr n ans, Event.src addr n ans ∉ newEvents s t)

/-- R33, R52, R57: a source request of a command asks for at least one byte, never for one of the header and never for one at or
beyond `SRCLEN`. -/
def Obligations.SourceRequestsStayInside : Prop :=
  ∀ (i : Instr) (s t : State) (x : Instance) (addr n : Nat) (ans : SrcAnswer), s.Inv → s.inst = some x →
    exec i s = .next t → Event.src addr n ans ∈ newEvents s t →
    x.hdr ≤ addr ∧ 1 ≤ n ∧ addr + n ≤ x.srclen ∧ addr = x.pos + x.hdr

/-- A change of the source made before a `READ` is seen by it (R59, R62): after the source is attached, a `READ` over the ideal
source asks it and mixes what it holds now. -/
def Obligations.ReadSeesSourceAsItIsNow : Prop :=
  (∀ (s : State) (src : Source) (rest : List PortInput), s.input = .source src :: rest →
    step s = .next { s with source := src, input := rest }) ∧
  (∀ (s : State) (x : Instance) (count : Nat) (bytes : List Byte), s.Inv → s.inst = some x → clamp x count ≠ 0 →
    s.source = Source.ofBytes bytes →
    ∃ t, exec (.read count) s = .next t ∧ t.source = s.source ∧
      outBytes (newEvents s t) = ((bytes.drop (x.pos + x.hdr)).take (clamp x count)).mapIdx fun j b =>
        b ^^^ keystreamAt Config.E x.key x.iv (x.pos + j))

/-! The keystream cache and the cipher port (41_keystream.md). -/

/-- R103: over any command sequence, from a state of the invariant, the number of cipher requests is one for each successful
`INIT` and position set, and for each `READ` the boundaries it crosses plus the lag it starts with. -/
def Obligations.CipherRequestCount : Prop :=
  ∀ (is : List Instr) (s : State), s.Inv →
    encCount (runCommands is s).events = encCount s.events + requestsDueAll is s

/-- R104: without lag `KS` is the keystream of the block of `POS`, with lag that of the block before. -/
def Obligations.CacheHoldsTheBlockOfThePosition : Prop :=
  ∀ (s : State) (x : Instance), s.Inv → s.inst = some x →
    (lag x = 0 → x.ks = Config.E x.key (counterReset x.iv (x.pos / 16))) ∧
    (lag x = 1 → x.ks = Config.E x.key (counterReset x.iv (x.pos / 16 - 1)))

/-- R105: the cipher is applied to counters of the instance only: under its key, to `Reset(IV, floor(p / 16))` for the position `p`
the command works at (the one set, or that of a byte a `READ` obtained), and its answer `E` of the two is what `KS` can hold. -/
def Obligations.CipherSeesCountersOnly : Prop :=
  ∀ (i : Instr) (s t : State) (key block ks : Bytes16), s.Inv → exec i s = .next t →
    Event.enc key block ks ∈ newEvents s t →
    ∃ (y : Instance) (p : Nat), t.inst = some y ∧ p ≤ s.width.posMax ∧ key = y.key ∧
      block = counterReset y.iv (blockIndex p) ∧ ks = Config.E key block ∧
      (i.cmd ≠ .read → p = y.pos ∧ y.ctr = block ∧ y.ks = ks) ∧
      ∀ count, i = .read count → ∃ x j, s.inst = some x ∧ j < (obtained x count s).length ∧ p = x.pos + j

/-- R34: `LAG` and `KSBLK` carry what `FRESH` carries: they give the same crossing test, and are updated as (a) and (b) say. -/
def Obligations.LagAndBlockIndexReplaceFresh : Prop :=
  ∀ (E : Config.Cipher) (w : Config.Width) (x : Instance), x.Inv E w →
    (crosses x = true ↔ lag x = 1) ∧ (crosses x = true ↔ x.pos / 16 ≠ keystreamBlock x) ∧
    keystreamBlock x = x.pos / 16 - lag x ∧
    (∀ t : Nat, lag (placeAt E x t).1 = 0 ∧ keystreamBlock (placeAt E x t).1 = t / 16) ∧
    (∀ b : Byte,
      (lag (byteMix E x b).1 = 1 ↔ lagAfterMix x.pos = true) ∧
      keystreamBlock (byteMix E x b).1 = keystreamBlock x + if crosses x then 1 else 0)

/-- R35, R30: `FRESH`, `CTR` and `KS` never show: from two good states that agree in everything but these, every command puts out
the same bytes and gives the same response, and leaves two states that agree in the same way, so that the same holds of every
sequence of commands. -/
def Obligations.HiddenStateNeverShowsInOutput : Prop :=
  ∀ (i : Instr) (s s' : State), s.Inv → s'.Inv → s.Alike s' →
    ∃ t t', exec i s = .next t ∧ exec i s' = .next t' ∧ t.Alike t' ∧
      outBytes (newEvents s t) = outBytes (newEvents s' t') ∧ responses (newEvents s t) = responses (newEvents s' t')

/-! Unsupported commands and faults (44_unsupported.md, 60_exceptions.md). -/

/-- R150, R151, R152: the write-class commands fault in every state and do nothing else. -/
def Obligations.WriteClassFaults : Prop :=
  ∀ (s : State) (n : Nat), exec (.write n) s = .next (faulted .capabilityViolation 0 s) ∧
    exec (.setlen n) s = .next (faulted .capabilityViolation 0 s) ∧
    exec .flush s = .next (faulted .capabilityViolation 0 s)

/-- R163: without an instance, every command of R160's row 3 faults with `NotConfigured`. -/
def Obligations.CommandsNeedAnInstance : Prop :=
  ∀ (i : Instr) (s : State), s.inst = none →
    i.cmd ∈ [Cmd.release, .getlen, .getpos, .setpos, .seekBegin, .seekCur, .seekEnd, .read] →
    exec i s = .next (faulted .notConfigured 0 s)

/-- R165: a command that ends with a fault has written no state element and made no port request, but for the one `Src` event a
`SourceFault` answers. -/
def Obligations.FaultsArePrecise : Prop :=
  ∀ (i : Instr) (s t : State) (es : List Event) (st : Status) (v : Nat), exec i s = .next t →
    t.events = s.events ++ es ++ [.rsp st v] → st ≠ .ok →
    t.inst = s.inst ∧ t.pending = s.pending ∧ t.input = s.input ∧
    (st ≠ .sourceFault → es = [] ∧ t.source = s.source) ∧
    (st = .sourceFault → ∃ addr n code, es = [.src addr n (.err code)] ∧ v = code)

/-- R170: at most one fault, the first that applies: reserved opcode, write class, configured state, operand range, source. -/
def Obligations.FaultPriority : Prop :=
  (∀ (s : State) (op : Byte) (rest : List PortInput), Cmd.ofOp op = none → s.pending = none →
    s.input = .byte op :: rest → (∀ r, rest ≠ .reset 0 :: r) →
    step s = .next (faulted .illegalCommand 0 { s with input := rest })) ∧
  (∀ (i : Instr) (s : State), i.cmd ∈ [Cmd.write, .setlen, .flush] →
    exec i s = .next (faulted .capabilityViolation 0 s)) ∧
  (∀ (i : Instr) (s : State), i.cmd ∉ [Cmd.write, .setlen, .flush] →
    (i.cmd = .init ∧ s.cfg = true → exec i s = .next (faulted .alreadyConfigured 0 s)) ∧
    (i.cmd ≠ .init ∧ s.cfg = false → exec i s = .next (faulted .notConfigured 0 s))) ∧
  (∀ (s : State) (key iv : Bytes16) (hdr srclen : Nat), s.cfg = false → (srclen < hdr ∨ s.width.posMax < srclen) →
    exec (.init key iv hdr srclen) s = .next (faulted .configRange 0 s)) ∧
  (∀ (s : State) (x : Instance) (p : Nat), s.inst = some x → s.width.posMax < p →
    exec (.setpos p) s = .next (faulted .positionRange 0 s)) ∧
  (∀ (s : State) (x : Instance) (origin : Origin) (off : Int), s.inst = some x →
    (seekTarget x origin off < 0 ∨ (s.width.posMax : Int) < seekTarget x origin off) →
    exec (Pseudo.seek off origin).expand s = .next (faulted .positionRange 0 s)) ∧
  (∀ (i : Instr) (s t : State) (v : Nat), exec i s = .next t → Event.rsp .sourceFault v ∈ newEvents s t →
    ∃ x count, i = .read count ∧ s.inst = some x ∧ 1 ≤ clamp x count)

/-- R168: the source's error ends the `READ` with `SourceFault` and its code unchanged, and no state element has changed. -/
def Obligations.SourceErrorPropagates : Prop :=
  ∀ (s : State) (x : Instance) (count code : Nat) (rest : List SrcReply), s.inst = some x → clamp x count ≠ 0 →
    0 < code → code < 2 ^ s.width.posw → s.source.script = .answer (.err code) :: rest →
    exec (.read count) s = .next { s with
      source := { s.source with script := rest }
      events := s.events ++ [.src (x.pos + x.hdr) (clamp x count) (.err code), .rsp .sourceFault code] }

/-- Every command, with a cipher engine that answers (which `exec` takes for granted, log 2; `SilentCipherBlocks` is the other
case), answers a next state and ends in exactly one response, its last event (R13, R80, R172), unless its source request is
never answered (R191). How that case looks (no event, no state element written, the wait held in `pending`) is log 6's choice. -/
def Obligations.EveryCommandEndsInOneResponse : Prop :=
  ∀ (i : Instr) (s : State), ∃ t es, exec i s = .next t ∧ t.events = s.events ++ es ∧ t.input = s.input ∧
    ((∃ fs st v, es = fs ++ [.rsp st v] ∧ rspCount fs = 0 ∧ t.pending = s.pending) ∨
      (es = [] ∧ t.pending ≠ none ∧ i.cmd = .read ∧ s.source.script.head? = some .silent ∧ t.inst = s.inst))

/-! State and reset (10_state.md, 70_reset_and_hazards.md). -/

/-- R21 to R24, R38: `KEY`, `IV`, `HDR` and `SRCLEN` are the same after every command but `RELEASE`, and a reset or `RELEASE`
leaves no instance. -/
def Obligations.ConfigurationIsImmutable : Prop :=
  ∀ (i : Instr) (s : State) (x : Instance), s.inst = some x → ∃ t, exec i s = .next t ∧
    (i ≠ .release → ∃ y, t.inst = some y ∧ y.key = x.key ∧ y.iv = x.iv ∧ y.hdr = x.hdr ∧ y.srclen = x.srclen) ∧
    (i = .release → t.inst = none)

/-- Only position sets and `READ` write `POS`, `CTR`, `KS` or `FRESH` of a live instance (R20's table, R63). -/
def Obligations.OnlySeeksAndReadsMoveTheCursor : Prop :=
  ∀ (i : Instr) (s : State) (x : Instance), s.inst = some x →
    i.cmd ∉ [Cmd.release, .setpos, .seekBegin, .seekCur, .seekEnd, .read] →
    ∃ t, exec i s = .next t ∧ t.inst = some x

/-- R39, R180: what reset leaves, on a part of any width: `CFG = 0` and no value in the other eight elements, no request waited on.
The empty input, source and event list beside them are the model's choice (log 7, 9, 10), and so is that the host's part is
that of R2 (log 1). -/
def Obligations.ResetLeavesNoInstance : Prop :=
  (∀ w : Config.Width, (State.resetAt w).cfg = false ∧ (State.resetAt w).inst = none ∧ (State.resetAt w).pending = none ∧
    State.resetAt w = hardwareReset (State.resetAt w) ∧ (State.resetAt w).input = [] ∧
    (State.resetAt w).source = Source.empty ∧ (State.resetAt w).events = [] ∧ (State.resetAt w).width = w) ∧
  State.reset = State.resetAt Config.partWidth ∧ Config.partWidth.posw = 64

/-- R180: hardware reset between commands, in a partial frame, inside a command, and before the response to a reserved opcode:
`CFG <- 0`, the other elements hold no value, the partial frame is gone, the interrupted command gives no response and none of
its remaining events. That the input says after how many events it lands is the model's choice (log 8). -/
def Obligations.HardwareResetAtAnyPoint : Prop :=
  (∀ (s : State) (k : Nat) (rest : List PortInput), s.input = .reset k :: rest →
    step s = .next { s with inst := none, pending := none, input := rest }) ∧
  (∀ (s : State) (op : Byte) (bs : List Byte) (k : Nat) (rest : List PortInput), s.pending = none →
    bs.length + 1 < framelen s.width op → s.input = (op :: bs).map .byte ++ .reset k :: rest →
    step s = .next { s with inst := none, pending := none, input := rest }) ∧
  (∀ (s t : State) (bs : List Byte) (i : Instr) (k : Nat) (rest : List PortInput), s.pending = none →
    decode s.width bs = .ok (i, []) → s.input = bs.map .byte ++ .reset k :: rest →
    exec i { s with input := .reset k :: rest } = .next t → k < (newEvents s t).length →
    ∃ u, step s = .next u ∧ u.inst = none ∧ u.pending = none ∧ u.input = rest ∧
      u.events = s.events ++ (newEvents s t).take k ∧ rspCount ((newEvents s t).take k) = 0 ∧
      u.source = if k = 0 then s.source else t.source) ∧
  (∀ (s : State) (op : Byte) (rest : List PortInput), Cmd.ofOp op = none → s.pending = none →
    s.input = .byte op :: .reset 0 :: rest → step s = .next { s with inst := none, pending := none, input := rest })

/-- The invariant holds at reset, on a part of any width. -/
def Obligations.InvariantAtReset : Prop := ∀ w : Config.Width, (State.resetAt w).Inv

/-- R31, R32, R33: every step from a state of the invariant leads to one: the counter invariant with its lag, `KS = E(KEY, CTR)`,
the ranges, and the canonical form of the source's memory; and no step changes the width of the part (R8). -/
def Obligations.StepKeepsInvariant : Prop :=
  ∀ s t : State, s.Inv → step s = .next t → t.Inv ∧ t.width = s.width

/-- R31, word for word, in every state of the invariant (also between the bytes of a `READ`). -/
def Obligations.CounterFollowsPositionWithLag : Prop :=
  ∀ (E : Config.Cipher) (w : Config.Width) (x : Instance) (data : List Byte), x.Inv E w → x.pos + data.length ≤ w.posMax →
    ∃ y, (mixAll E x data).1 = y ∧ y.pos = x.pos + data.length ∧
      val y.ctr = (val y.iv + y.pos / 16 -
        (if y.pos % 16 = 0 ∧ 0 < y.pos ∧ y.fresh = false then 1 else 0)) % 2 ^ 128 ∧
      y.ks = E y.key y.ctr

/-- The source's memory: a read after a write gives the byte written and every other address is left alone, and the canonical
form is kept (R50; the form is the model's own). -/
def Obligations.MemoryReadsWhatWasWritten : Prop :=
  ∀ (m : Memory) (a : Nat) (v : Byte), m.wf →
    (m.write a v).wf ∧ (m.write a v).read a = v ∧ ∀ b, b ≠ a → (m.write a v).read b = m.read b

/-- R52, R80, R121: what a command puts on a port as a position, length, count or code is a `POSW`-bit word: no rule needs more. -/
def Obligations.PortValuesFitTheWord : Prop :=
  ∀ (i : Instr) (s t : State), s.Inv → exec i s = .next t →
    (∀ st v, Event.rsp st v ∈ newEvents s t → v < 2 ^ s.width.posw) ∧
    (∀ addr n ans, Event.src addr n ans ∈ newEvents s t → addr < 2 ^ s.width.posw ∧ n < 2 ^ s.width.posw ∧
      ∀ code, ans = .err code → 0 < code ∧ code < 2 ^ s.width.posw) ∧
    (∀ addr n, t.pending = some (.source addr n) → s.pending = none → addr < 2 ^ s.width.posw ∧ n < 2 ^ s.width.posw)
end

