-- ==== Sys2Proof/Laws/Bytes.lean ====
section
/-! SUPPORT. Byte order and widths: `leVal` and `leBytes` are inverse, and so are `val` and `bytes16`, `sext` and `twos`
(rule R10 of 00_scope.md). -/

namespace Sys2Proof.Machine

theorem BLK_eq : Config.BLK = 16 := rfl

/-- The values of `POSW` bits are those of `PB` bytes (R8, R71). -/
theorem pow_posw (w : Config.Width) : 2 ^ w.posw = 256 ^ w.pb := by
  rw [Config.Width.posw, pow_mul]; norm_num

/-- Half of the unsigned values are legal positions (R8, D3). -/
theorem pow_posw_eq (w : Config.Width) : 2 ^ w.posw = 2 * 2 ^ (w.posw - 1) := by
  have h := w.one_le
  rw [← pow_succ']
  congr 1
  unfold Config.Width.posw
  omega

theorem posMax_succ (w : Config.Width) : w.posMax + 1 = 2 ^ (w.posw - 1) := by
  have h : 0 < 2 ^ (w.posw - 1) := Nat.two_pow_pos _
  unfold Config.Width.posMax
  omega

/-- A legal position is an unsigned word (R28). -/
theorem posMax_lt (w : Config.Width) : w.posMax < 2 ^ w.posw := by
  have h1 := posMax_succ w
  have h2 := pow_posw_eq w
  omega

theorem leVal_lt (l : List Byte) : leVal l < 256 ^ l.length := by
  induction l with
  | nil => simp [leVal]
  | cons b bs ih =>
    have hb := b.isLt
    simp only [leVal, List.length_cons, pow_succ]
    omega

theorem leVal_leBytes (k v : Nat) : leVal (leBytes k v) = v % 256 ^ k := by
  induction k generalizing v with
  | zero => simp [leBytes, leVal, Nat.mod_one]
  | succ k ih =>
    have h8 : (BitVec.ofNat 8 v).toNat = v % 256 := by simp
    rw [leBytes, leVal, h8, ih, pow_succ' 256 k, Nat.mod_mul]

theorem leBytes_leVal (l : List Byte) : leBytes l.length (leVal l) = l := by
  induction l with
  | nil => rfl
  | cons b bs ih =>
    have hb := b.isLt
    have h : (b.toNat + 256 * leVal bs) / 256 = leVal bs := by omega
    simp only [List.length_cons, leBytes, leVal, h, ih, List.cons.injEq, and_true]
    apply BitVec.eq_of_toNat_eq
    rw [BitVec.toNat_ofNat]
    omega

theorem leVal_append (l m : List Byte) : leVal (l ++ m) = leVal l + 256 ^ l.length * leVal m := by
  induction l with
  | nil => simp [leVal]
  | cons b bs ih => simp only [List.cons_append, leVal, ih, List.length_cons, pow_succ]; ring

theorem leVal_injective {l m : List Byte} (hl : l.length = m.length) (h : leVal l = leVal m) : l = m := by
  rw [← leBytes_leVal l, ← leBytes_leVal m, hl, h]

theorem leVal_getElem (l : List Byte) (i : Nat) (h : i < l.length) :
    leVal l / 256 ^ i % 256 = l[i].toNat := by
  induction l generalizing i with
  | nil => simp at h
  | cons b bs ih =>
    have hb := b.isLt
    cases i with
    | zero => simp only [leVal, pow_zero, Nat.div_one, List.getElem_cons_zero]; omega
    | succ i =>
      have hd : leVal (b :: bs) / 256 = leVal bs := by simp only [leVal]; omega
      rw [pow_succ', ← Nat.div_div_eq_div_mul, hd]
      simpa using ih i (by simpa using h)

/-- A frame of one operand: its opcode byte and `k` bytes (R71). -/
theorem cons_leBytes_length (op : Byte) (k v : Nat) : (op :: leBytes k v).length = 1 + k := by
  rw [List.length_cons, leBytes_length, Nat.add_comm]

theorem leBytes_getElem (k v i : Nat) (h : i < (leBytes k v).length) :
    ((leBytes k v)[i]).toNat = v / 256 ^ i % 256 := by
  have hk : i < k := by simpa [leBytes_length] using h
  rw [← leVal_getElem, leVal_leBytes]
  obtain ⟨d, rfl⟩ := Nat.exists_eq_add_of_lt hk
  rw [show i + d + 1 = i + (d + 1) by omega, pow_add, Nat.mod_mul_right_div_self, pow_succ,
    Nat.mod_mul_left_mod]

@[simp] theorem ofList16_toList (l : List Byte) (h : l.length = Config.BLK) : (ofList16 l h).toList = l := rfl

theorem bytes16_ext {A B : Bytes16} (h : A.toList = B.toList) : A = B :=
  Vector.toList_inj.mp h

theorem val_lt (B : Bytes16) : val B < 2 ^ 128 := by
  have h := leVal_lt B.toList
  rw [Vector.length_toList] at h
  exact h

theorem val_bytes16 (v : Nat) : val (bytes16 v) = v % 2 ^ 128 := leVal_leBytes _ v

theorem val_injective {A B : Bytes16} (h : val A = val B) : A = B :=
  bytes16_ext (leVal_injective (by simp) h)

theorem bytes16_val (B : Bytes16) : bytes16 (val B) = B :=
  val_injective (by rw [val_bytes16, Nat.mod_eq_of_lt (val_lt B)])

theorem bytes16_mod (v : Nat) : bytes16 (v % 2 ^ 128) = bytes16 v :=
  val_injective (by simp only [val_bytes16, Nat.mod_mod])

theorem twos_lt (n : Nat) (i : Int) : twos n i < 2 ^ n := by
  have hp : (0 : Int) < 2 ^ n := by positivity
  have h1 := Int.emod_nonneg i hp.ne'
  have h2 := Int.emod_lt_of_pos i hp
  have : (twos n i : Int) < 2 ^ n := by rw [twos, Int.toNat_of_nonneg h1]; exact h2
  exact_mod_cast this

/-- Two's complement loses no signed value of `n + 1` bits (R10, R73). -/
theorem sext_twos {n : Nat} {off : Int} (h : -2 ^ n ≤ off ∧ off < 2 ^ n) : sext (n + 1) (twos (n + 1) off) = off := by
  have hz : (0 : Int) < 2 ^ n := by positivity
  have hcast : ((2 ^ n : Nat) : Int) = 2 ^ n := by push_cast; rfl
  unfold sext twos
  rw [Nat.add_sub_cancel, pow_succ]
  rcases lt_or_ge off 0 with hn | hn
  · have hm : off % (2 ^ n * 2) = off + 2 ^ n * 2 := by
      rw [← Int.add_mul_emod_self_right (a := off) (b := 1), one_mul, Int.emod_eq_of_lt (by omega) (by omega)]
    rw [hm, if_neg (by omega)]
    omega
  · rw [Int.emod_eq_of_lt hn (by omega), if_pos (by omega)]
    omega

theorem twos_sext {n v : Nat} (h : v < 2 ^ (n + 1)) : twos (n + 1) (sext (n + 1) v) = v := by
  have hcast : ((2 ^ n : Nat) : Int) = 2 ^ n := by push_cast; rfl
  rw [pow_succ] at h
  unfold sext twos
  rw [Nat.add_sub_cancel, pow_succ]
  split
  · rw [Int.emod_eq_of_lt (by omega) (by omega)]; omega
  · rw [← Int.add_mul_emod_self_right (b := 1), one_mul, Int.emod_eq_of_lt (by omega) (by omega)]; omega

theorem sext_range {n v : Nat} (h : v < 2 ^ (n + 1)) : -2 ^ n ≤ sext (n + 1) v ∧ sext (n + 1) v < 2 ^ n := by
  have hcast : ((2 ^ n : Nat) : Int) = 2 ^ n := by push_cast; rfl
  rw [pow_succ] at h
  unfold sext
  rw [Nat.add_sub_cancel, pow_succ]
  split <;> omega

end Sys2Proof.Machine
end

