-- ==== Sys2Proof/Laws/Counter.lean ====
section
/-! SUPPORT. What the scan of `Inc` and the addition loop of `AddLE` compute, byte list by byte list, and the value of `Reset`
(rules R90 to R94 of 40_counter.md). -/

namespace Sys2Proof.Machine

theorem leVal_incBytes (l : List Byte) : leVal (incBytes l) = (leVal l + 1) % 256 ^ l.length := by
  induction l with
  | nil => simp [incBytes, leVal]
  | cons b bs ih =>
    have hb := b.isLt
    have hlt := leVal_lt bs
    have hsum : (b + 1).toNat = (b.toNat + 1) % 256 := by simp [BitVec.toNat_add]
    unfold incBytes
    split
    · rename_i h
      have h0 : (b.toNat + 1) % 256 = 0 := by rw [← hsum, h]; rfl
      simp only [leVal, hsum, h0, ih, List.length_cons, pow_succ, Nat.mul_comm (256 ^ bs.length) 256]
      rw [show b.toNat + 256 * leVal bs + 1 = 256 * (leVal bs + 1) by omega, Nat.mul_mod_mul_left]
      omega
    · rename_i h
      have h1 : b.toNat + 1 < 256 := by
        by_contra hc
        exact h (BitVec.eq_of_toNat_eq (by rw [hsum]; simp; omega))
      simp only [leVal, hsum, List.length_cons, pow_succ]
      rw [Nat.mod_eq_of_lt h1, Nat.mod_eq_of_lt (by omega)]
      omega

theorem leVal_addBytes (l : List Byte) (n c : Nat) :
    leVal (addBytes l n c) = (leVal l + n + c) % 256 ^ l.length := by
  induction l generalizing n c with
  | nil => simp [addBytes, leVal, Nat.mod_one]
  | cons b bs ih =>
    have hd : leVal bs + n / 256 + (b.toNat + n % 256 + c) / 256 = (b.toNat + 256 * leVal bs + n + c) / 256 := by
      omega
    have hm : (b.toNat + n % 256 + c) % 256 = (b.toNat + 256 * leVal bs + n + c) % 256 := by omega
    have h8 : (BitVec.ofNat 8 (b.toNat + n % 256 + c)).toNat = (b.toNat + n % 256 + c) % 256 := by simp
    rw [addBytes, leVal, leVal, h8, ih, hd, hm, List.length_cons, pow_succ' 256, Nat.mod_mul]

theorem val_counterReset (iv : Bytes16) (n : Nat) : val (counterReset iv n) = (val iv + n) % 2 ^ 128 := by
  rw [counterReset, val_bytes16, Nat.mod_mod]

theorem counterReset_zero (iv : Bytes16) : counterReset iv 0 = iv := by
  rw [counterReset, bytes16_mod, Nat.add_zero, bytes16_val]

end Sys2Proof.Machine
end

