-- ==== Sys2Proof/Laws/Memory.lean ====
section
/-! SUPPORT. The source's memory: every operation keeps the canonical form, and reads see writes (R50, R53 of 20_memory.md). -/

namespace Sys2Proof.Machine

@[simp] theorem Memory.read_nil (a : Nat) : Memory.read [] a = Memory.unlisted := rfl

theorem Memory.read_of_lt {m : Memory} {a : Nat} (h : ∀ c ∈ m, a < c.1) : Memory.read m a = Memory.unlisted := by
  induction m with
  | nil => rfl
  | cons c m ih =>
    have h1 : ¬ c.1 = a := by have := h c (by simp); omega
    simp only [Memory.read, h1, if_false]
    exact ih fun d hd => h d (by simp [hd])

theorem Memory.mem_write {m : Memory} {a : Nat} {v : Byte} {c : Host.Cell} (h : c ∈ Memory.write m a v) :
    c ∈ m ∨ (c = (a, v) ∧ v ≠ Memory.unlisted) := by
  induction m with
  | nil => by_cases hv : v = Memory.unlisted <;> simp_all [Memory.write]
  | cons d m ih =>
    obtain ⟨k, b⟩ := d
    simp only [Memory.write] at h
    split at h
    · split at h <;> simp_all; tauto
    · split at h
      · split at h <;> simp_all; tauto
      · simp only [List.mem_cons] at h ⊢
        obtain h | h := h
        · simp [h]
        · have := ih h; tauto

theorem Memory.write_keeps_wf {m : Memory} (h : m.wf) (a : Nat) (v : Byte) : (m.write a v).wf := by
  refine ⟨?_, fun c hc => ?_⟩
  · obtain ⟨hs, -⟩ := h
    induction m with
    | nil => by_cases hv : v = Memory.unlisted <;> simp [Memory.write, hv]
    | cons d m ih =>
      obtain ⟨k, b⟩ := d
      have hs' := List.pairwise_cons.mp hs
      simp only [Memory.write]
      split
      · split
        · exact hs
        · refine List.pairwise_cons.mpr ⟨fun c hc => ?_, hs⟩
          obtain rfl | hc := List.mem_cons.mp hc
          · assumption
          · have := hs'.1 c hc; simp only at this ⊢; omega
      · split
        · split
          · exact hs'.2
          · exact List.pairwise_cons.mpr ⟨fun c hc => by have := hs'.1 c hc; simp only at this ⊢; omega, hs'.2⟩
        · refine List.pairwise_cons.mpr ⟨fun c hc => ?_, ih hs'.2⟩
          obtain hc | ⟨rfl, -⟩ := Memory.mem_write hc
          · exact hs'.1 c hc
          · simp only; omega
  · obtain hc | ⟨rfl, hv⟩ := Memory.mem_write hc
    · exact h.2 c hc
    · exact hv

theorem Memory.mem_ofBytes {a : Nat} {l : List Byte} {c : Host.Cell} (h : c ∈ Memory.ofBytes a l) :
    a ≤ c.1 ∧ c.2 ≠ Memory.unlisted := by
  induction l generalizing a with
  | nil => simp [Memory.ofBytes] at h
  | cons b bs ih =>
    simp only [Memory.ofBytes] at h
    split at h
    · exact ⟨by have := (ih h).1; omega, (ih h).2⟩
    · obtain rfl | h := List.mem_cons.mp h
      · exact ⟨le_refl _, by assumption⟩
      · exact ⟨by have := (ih h).1; omega, (ih h).2⟩

theorem Memory.ofBytes_wf (a : Nat) (l : List Byte) : (Memory.ofBytes a l).wf := by
  refine ⟨?_, fun c hc => (Memory.mem_ofBytes hc).2⟩
  induction l generalizing a with
  | nil => simp [Memory.ofBytes]
  | cons b bs ih =>
    simp only [Memory.ofBytes]
    split
    · exact ih _
    · exact List.pairwise_cons.mpr ⟨fun c hc => by have := (Memory.mem_ofBytes hc).1; simp only; omega, ih _⟩

theorem Memory.read_ofBytes (a : Nat) (l : List Byte) (i : Nat) :
    Memory.read (Memory.ofBytes a l) (a + i) = l.getD i Memory.unlisted := by
  induction l generalizing a i with
  | nil => simp [Memory.ofBytes]
  | cons b bs ih =>
    cases i with
    | zero =>
      simp only [Memory.ofBytes, Nat.add_zero, List.getD_cons_zero]
      split
      · rw [Memory.read_of_lt fun c hc => by have := (Memory.mem_ofBytes hc).1; omega]; simp_all
      · simp [Memory.read]
    | succ i =>
      have h := ih (a + 1) i
      rw [show a + 1 + i = a + (i + 1) by omega] at h
      simp only [Memory.ofBytes, List.getD_cons_succ]
      split
      · exact h
      · simp only [Memory.read, show ¬ a = a + (i + 1) by omega, if_false]; exact h

@[simp] theorem Memory.readBytes_length (m : Memory) (a k : Nat) : (m.readBytes a k).length = k := by
  induction k generalizing a with
  | zero => rfl
  | succ k ih => simp [Memory.readBytes, ih]

theorem Memory.readBytes_getElem (m : Memory) (a k j : Nat) (h : j < (m.readBytes a k).length) :
    (m.readBytes a k)[j] = m.read (a + j) := by
  induction k generalizing a j with
  | zero => simp [Memory.readBytes] at h
  | succ k ih =>
    cases j with
    | zero => rfl
    | succ j =>
      have := ih (a + 1) j (by simpa using h)
      simp only [Memory.readBytes, List.getElem_cons_succ, this]
      congr 1; omega

end Sys2Proof.Machine
end

