-- ==== Sys2Proof/Laws/State.lean ====
section
/-! SUPPORT. One lemma per field per update: what each operation that rewrites a record leaves in each field. -/

namespace Sys2Proof.Machine

section
variable (E : Config.Cipher) (es : List Event) (st : Status) (v : Nat) (s : State) (x : Instance) (p : Nat) (b : Byte)

@[simp] theorem emit_width : (emit es s).width = s.width := rfl
@[simp] theorem emit_inst : (emit es s).inst = s.inst := rfl
@[simp] theorem emit_pending : (emit es s).pending = s.pending := rfl
@[simp] theorem emit_input : (emit es s).input = s.input := rfl
@[simp] theorem emit_source : (emit es s).source = s.source := rfl
@[simp] theorem emit_events : (emit es s).events = s.events ++ es := rfl

@[simp] theorem respond_width : (respond st v s).width = s.width := rfl
@[simp] theorem respond_inst : (respond st v s).inst = s.inst := rfl
@[simp] theorem respond_pending : (respond st v s).pending = s.pending := rfl
@[simp] theorem respond_input : (respond st v s).input = s.input := rfl
@[simp] theorem respond_source : (respond st v s).source = s.source := rfl
@[simp] theorem respond_events : (respond st v s).events = s.events ++ [.rsp st v] := rfl

@[simp] theorem takeFault_width : (takeFault st v s).width = s.width := rfl
@[simp] theorem takeFault_inst : (takeFault st v s).inst = s.inst := rfl
@[simp] theorem takeFault_pending : (takeFault st v s).pending = s.pending := rfl
@[simp] theorem takeFault_input : (takeFault st v s).input = s.input := rfl
@[simp] theorem takeFault_source : (takeFault st v s).source = s.source := rfl
@[simp] theorem takeFault_events : (takeFault st v s).events = s.events ++ [.rsp st v] := rfl

@[simp] theorem hardwareReset_width : (hardwareReset s).width = s.width := rfl
@[simp] theorem hardwareReset_inst : (hardwareReset s).inst = none := rfl
@[simp] theorem hardwareReset_pending : (hardwareReset s).pending = none := rfl
@[simp] theorem hardwareReset_input : (hardwareReset s).input = s.input := rfl
@[simp] theorem hardwareReset_source : (hardwareReset s).source = s.source := rfl
@[simp] theorem hardwareReset_events : (hardwareReset s).events = s.events := rfl

@[simp] theorem ctrInc_ctr : (ctrInc x).ctr = counterInc x.ctr := rfl
@[simp] theorem ctrInc_ks : (ctrInc x).ks = x.ks := rfl
@[simp] theorem ctrInc_key : (ctrInc x).key = x.key := rfl
@[simp] theorem ctrInc_iv : (ctrInc x).iv = x.iv := rfl
@[simp] theorem ctrInc_pos : (ctrInc x).pos = x.pos := rfl
@[simp] theorem ctrInc_fresh : (ctrInc x).fresh = x.fresh := rfl

@[simp] theorem ctrReset_ctr : (ctrReset x p).ctr = counterReset x.iv (blockIndex p) := rfl
@[simp] theorem ctrReset_ks : (ctrReset x p).ks = x.ks := rfl
@[simp] theorem ctrReset_key : (ctrReset x p).key = x.key := rfl
@[simp] theorem ctrReset_iv : (ctrReset x p).iv = x.iv := rfl
@[simp] theorem ctrReset_pos : (ctrReset x p).pos = x.pos := rfl
@[simp] theorem ctrReset_fresh : (ctrReset x p).fresh = x.fresh := rfl

@[simp] theorem ksRefill_ks : (ksRefill E x).1.ks = E x.key x.ctr := rfl
@[simp] theorem ksRefill_ctr : (ksRefill E x).1.ctr = x.ctr := rfl
@[simp] theorem ksRefill_key : (ksRefill E x).1.key = x.key := rfl
@[simp] theorem ksRefill_iv : (ksRefill E x).1.iv = x.iv := rfl
@[simp] theorem ksRefill_pos : (ksRefill E x).1.pos = x.pos := rfl
@[simp] theorem ksRefill_fresh : (ksRefill E x).1.fresh = x.fresh := rfl
@[simp] theorem ksRefill_events : (ksRefill E x).2 = [.enc x.key x.ctr (E x.key x.ctr)] := rfl

@[simp] theorem byteMix_fresh : (byteMix E x b).1.fresh = false := rfl
@[simp] theorem byteMix_pos : (byteMix E x b).1.pos = (crossBlock E x).1.pos + 1 := rfl
@[simp] theorem byteMix_ctr : (byteMix E x b).1.ctr = (crossBlock E x).1.ctr := rfl
@[simp] theorem byteMix_ks : (byteMix E x b).1.ks = (crossBlock E x).1.ks := rfl
@[simp] theorem byteMix_events :
    (byteMix E x b).2 = (crossBlock E x).2 ++ [.out (b ^^^ keystreamByte (crossBlock E x).1)] := rfl

@[simp] theorem withFetchWord_width (n w : Nat) : (s.withFetchWord n w).width = s.width := rfl
@[simp] theorem withFetchWord_pending (n w : Nat) : (s.withFetchWord n w).pending = none := rfl
@[simp] theorem withFetchWord_inst (n w : Nat) : (s.withFetchWord n w).inst = s.inst := rfl
@[simp] theorem withFetchWord_source (n w : Nat) : (s.withFetchWord n w).source = s.source := rfl
@[simp] theorem withFetchWord_events (n w : Nat) : (s.withFetchWord n w).events = s.events := rfl
@[simp] theorem withFetchWord_input (n w : Nat) :
    (s.withFetchWord n w).input = (tableFrame s.width n w).map .byte := rfl

variable (t : State) (k : Nat) (q : PortRequest) (rest : List PortInput)

@[simp] theorem cutShort_width : (cutShort s t k rest).width = s.width := rfl
@[simp] theorem cutShort_inst : (cutShort s t k rest).inst = none := rfl
@[simp] theorem cutShort_pending : (cutShort s t k rest).pending = none := rfl
@[simp] theorem cutShort_input : (cutShort s t k rest).input = rest := rfl
@[simp] theorem cutShort_source : (cutShort s t k rest).source = if k = 0 then s.source else t.source := rfl
@[simp] theorem cutShort_events :
    (cutShort s t k rest).events = s.events ++ (t.events.drop s.events.length).take k := rfl

@[simp] theorem stalled_width : (stalled s t k q rest).width = s.width := rfl
@[simp] theorem stalled_inst : (stalled s t k q rest).inst = s.inst := rfl
@[simp] theorem stalled_pending : (stalled s t k q rest).pending = some q := rfl
@[simp] theorem stalled_input : (stalled s t k q rest).input = rest := rfl
@[simp] theorem stalled_source : (stalled s t k q rest).source = if k = 0 then s.source else t.source := rfl
@[simp] theorem stalled_events :
    (stalled s t k q rest).events = s.events ++ (t.events.drop s.events.length).take k := rfl

end

end Sys2Proof.Machine
end

