-- ==== Sys2Proof/Laws/Ops.lean ====
section
/-! SUPPORT. Once for each shared operation, everything it can do: the configured check, the source request, the position set,
the crossing, one byte of the mixer, and the walk of a `READ`. -/

namespace Sys2Proof.Machine

open Config (Cipher)

/-! The configured check (R163). -/

theorem whenConfigured_none {s : State} (h : s.inst = none) (body : Instance → State) :
    whenConfigured s body = takeFault .notConfigured 0 s := by simp only [whenConfigured, h]

theorem whenConfigured_some {s : State} {x : Instance} (h : s.inst = some x) (body : Instance → State) :
    whenConfigured s body = body x := by simp only [whenConfigured, h]

/-! The source port (R52, R53). -/

/-- A source request changes only the script, and an answer keeps to the length asked for. -/
theorem srcRead_cases (w : Config.Width) (addr n : Nat) (src : Source) :
    (srcRead w addr n src).2.mem = src.mem ∧ (srcRead w addr n src).2.phys = src.phys ∧
    ((srcRead w addr n src).1 = none ∨ (∃ code, (srcRead w addr n src).1 = some (.err code) ∧ 0 < code ∧ code < 2 ^ w.posw) ∨
      ∃ data, (srcRead w addr n src).1 = some (.ok data) ∧ data.length ≤ n) := by
  unfold srcRead
  split
  · exact ⟨rfl, rfl, .inr (.inr ⟨_, rfl, by simp [idealData]⟩)⟩
  · exact ⟨rfl, rfl, .inl rfl⟩
  · rename_i a rest _
    cases a with
    | err code => 
      have h := pow_posw_eq w
      have h0 := posMax_succ w
      exact ⟨rfl, rfl, .inr (.inl ⟨_, rfl, by omega, by omega⟩)⟩
    | ok data => exact ⟨rfl, rfl, .inr (.inr ⟨_, rfl, by simp⟩)⟩

theorem srcRead_data_le {w : Config.Width} {addr n : Nat} {src : Source} {data : List Byte}
    (h : (srcRead w addr n src).1 = some (.ok data)) : data.length ≤ n := by
  obtain ⟨-, -, h1 | ⟨c, h1, -⟩ | ⟨d, h1, hd⟩⟩ := srcRead_cases w addr n src <;> rw [h] at h1 <;> simp at h1
  exact h1 ▸ hd

theorem idealData_length (src : Source) (addr n : Nat) :
    (idealData src addr n).length = min n (src.phys - addr) := by simp [idealData]

/-! The position set (R110). -/

/-- `SetPosition(t)` at a legal `t` in the words of the claims. -/
theorem placeAt_eq (E : Cipher) (x : Instance) (t : Nat) :
    placeAt E x t = (positioned E x t, [.enc x.key (positioned E x t).ctr (positioned E x t).ks]) := rfl

theorem setPosition_legal {E : Cipher} {x : Instance} {t : Int} {s : State} (h : 0 ≤ t ∧ t ≤ (s.width.posMax : Int)) :
    setPosition E x t s =
      respond .ok t.toNat (emit [.enc x.key (positioned E x t.toNat).ctr (positioned E x t.toNat).ks]
        { s with inst := some (positioned E x t.toNat) }) := by
  have hl : legalPosition s.width t = true := by simp only [legalPosition, h.1, h.2, decide_true, Bool.and_self]
  rw [setPosition, if_pos hl]
  rfl

theorem setPosition_illegal {E : Cipher} {x : Instance} {t : Int} {s : State}
    (h : ¬ (0 ≤ t ∧ t ≤ (s.width.posMax : Int))) : setPosition E x t s = takeFault .positionRange 0 s := by
  have hl : ¬ legalPosition s.width t = true := by
    simpa only [legalPosition, Bool.and_eq_true, decide_eq_true_eq] using h
  rw [setPosition, if_neg hl]

/-! The lag and the crossing (R31, R134). -/

theorem crosses_iff (x : Instance) :
    crosses x = true ↔ x.pos % 16 = 0 ∧ 0 < x.pos ∧ x.fresh = false := by
  simp [crosses, and_assoc]

theorem lag_of_crosses {x : Instance} (h : crosses x = true) : lag x = 1 := by
  rw [lag, if_pos ((crosses_iff x).mp h)]

theorem lag_of_not_crosses {x : Instance} (h : ¬ crosses x = true) : lag x = 0 := by
  rw [lag, if_neg (fun hc => h ((crosses_iff x).mpr hc))]

theorem lag_of_fresh {x : Instance} (h : x.fresh = true) : lag x = 0 := by
  rw [lag, if_neg (by simp [h])]

/-- After the crossing part of `BYTE.MIX`, counter and keystream are those of the block of `POS` (R138's proof outline). -/
theorem crossBlock_ready {E : Cipher} {w : Config.Width} {x : Instance} (h : x.Inv E w) :
    (crossBlock E x).1 =
      { x with
        ctr := bytes16 ((val x.iv + x.pos / 16) % 2 ^ 128)
        ks := E x.key (bytes16 ((val x.iv + x.pos / 16) % 2 ^ 128)) } ∧
    (crossBlock E x).2 =
      if lag x = 1 then
        [.enc x.key (bytes16 ((val x.iv + x.pos / 16) % 2 ^ 128))
          (E x.key (bytes16 ((val x.iv + x.pos / 16) % 2 ^ 128)))]
      else [] := by
  by_cases hc : crosses x = true
  · have hl := lag_of_crosses hc
    obtain ⟨h16, hpos, -⟩ := (crosses_iff x).mp hc
    have hctr : counterInc x.ctr = bytes16 ((val x.iv + x.pos / 16) % 2 ^ 128) := by
      apply val_injective
      have hv : val (counterInc x.ctr) = (val x.ctr + 1) % 2 ^ 128 := by
        have := leVal_incBytes x.ctr.toList
        rw [Vector.length_toList] at this
        exact this
      rw [hv, h.counter, hl, val_bytes16, Nat.mod_mod, Nat.mod_add_mod]
      congr 1
      omega
    rw [crossBlock, if_pos hc, hl]
    simp [ksRefill, ctrInc, hctr]
  · have hl := lag_of_not_crosses hc
    have hctr : x.ctr = bytes16 ((val x.iv + x.pos / 16) % 2 ^ 128) :=
      val_injective (by rw [h.counter, hl, val_bytes16, Nat.mod_mod, Nat.sub_zero])
    have hks : x.ks = E x.key (bytes16 ((val x.iv + x.pos / 16) % 2 ^ 128)) := by rw [← hctr, h.keystream]
    rw [crossBlock, if_neg hc, hl]
    exact ⟨by rw [← hks, ← hctr], by simp⟩

/-- `BYTE.MIX` from a good instance: where it goes and what it emits (R134, R138). -/
theorem byteMix_eq {E : Cipher} {w : Config.Width} {x : Instance} (h : x.Inv E w) (b : Byte) :
    byteMix E x b =
      ({ x with
          ctr := bytes16 ((val x.iv + x.pos / 16) % 2 ^ 128)
          ks := E x.key (bytes16 ((val x.iv + x.pos / 16) % 2 ^ 128))
          pos := x.pos + 1
          fresh := false },
        (if lag x = 1 then
          [.enc x.key (bytes16 ((val x.iv + x.pos / 16) % 2 ^ 128))
            (E x.key (bytes16 ((val x.iv + x.pos / 16) % 2 ^ 128)))]
          else []) ++ [.out (b ^^^ keystreamAt E x.key x.iv x.pos)]) := by
  obtain ⟨h1, h2⟩ := crossBlock_ready h
  simp only [byteMix, h1, h2]
  rfl

/-- `BYTE.MIX` keeps the invariant of the instance. -/
theorem byteMix_inv {E : Cipher} {w : Config.Width} {x : Instance} (h : x.Inv E w) (b : Byte) (hp : x.pos < w.posMax) :
    (byteMix E x b).1.Inv E w ∧ (byteMix E x b).1.pos = x.pos + 1 := by
  rw [byteMix_eq h]
  refine ⟨⟨h.hdr_le, h.srclen_le, hp, ?_, rfl, fun h0 => absurd h0 (Nat.succ_ne_zero _)⟩, rfl⟩
  simp only [lag, val_bytes16, Nat.mod_mod, and_true, Config.BLK]
  congr 1
  split <;> omega

/-- The walk of `READ` from a good instance (R135, R138): it never leaves the invariant, it moves `POS` by the bytes mixed, and
what it emits is what the claims call `mixEvents`. -/
theorem mixAll_spec {E : Cipher} {w : Config.Width} (data : List Byte) {x : Instance} (h : x.Inv E w)
    (hp : x.pos + data.length ≤ w.posMax) :
    (mixAll E x data).1.Inv E w ∧ (mixAll E x data).1.pos = x.pos + data.length ∧
    (mixAll E x data).1.key = x.key ∧ (mixAll E x data).1.iv = x.iv ∧
    (mixAll E x data).1.hdr = x.hdr ∧ (mixAll E x data).1.srclen = x.srclen ∧
    (mixAll E x data).1.fresh = (x.fresh && data.isEmpty) ∧
    (mixAll E x data).2 = mixEvents E x.key x.iv x.pos (lag x == 0) data := by
  induction data generalizing x with
  | nil => simp [mixAll, mixEvents, h]
  | cons b bs ih =>
    have hlen : x.pos + (bs.length + 1) ≤ w.posMax := by simpa using hp
    obtain ⟨hi, hpos⟩ := byteMix_inv h b (by omega)
    obtain ⟨g1, g2, g3, g4, g5, g6, g7, g8⟩ := ih hi (by omega)
    have hkey : (byteMix E x b).1.key = x.key := by rw [byteMix_eq h]
    have hiv : (byteMix E x b).1.iv = x.iv := by rw [byteMix_eq h]
    have hhdr : (byteMix E x b).1.hdr = x.hdr := by rw [byteMix_eq h]
    have hsl : (byteMix E x b).1.srclen = x.srclen := by rw [byteMix_eq h]
    refine ⟨g1, by simp only [mixAll, g2, hpos, List.length_cons]; omega, g3.trans hkey, g4.trans hiv,
      g5.trans hhdr, g6.trans hsl, by simp [mixAll, g7], ?_⟩
    have hlag : (lag (byteMix E x b).1 == 0) = !decide ((x.pos + 1) % 16 = 0) := by
      simp only [lag, byteMix_fresh, hpos, and_true, Config.BLK]
      by_cases h16 : (x.pos + 1) % 16 = 0 <;> simp [h16]
    have hev : (byteMix E x b).2 = _ := congrArg Prod.snd (byteMix_eq h b)
    have hrest : mixEvents E x.key x.iv (x.pos + 1) (!decide ((x.pos + 1) % 16 = 0)) bs =
        mixEvents E x.key x.iv (x.pos + 1) false bs := by
      cases bs with
      | nil => rfl
      | cons c cs => by_cases h16 : (x.pos + 1) % 16 = 0 <;> simp [mixEvents, h16]
    have hfirst : (lag x = 1) ↔ x.pos % 16 = 0 ∧ (lag x == 0) = false := by
      simp only [lag]
      split <;> simp_all
    simp only [mixAll, g8, hkey, hiv, hpos, hlag, hrest, hev, mixEvents, ← hfirst, List.append_assoc, List.singleton_append]

/-! Commands. -/

/-- An instance with a legal configuration is good after a position set (R110, R111). -/
theorem positioned_inv {E : Cipher} {w : Config.Width} {x : Instance} (hh : x.hdr ≤ x.srclen) (hs : x.srclen ≤ w.posMax)
    {t : Nat} (ht : t ≤ w.posMax) : (positioned E x t).Inv E w := by
  refine ⟨hh, hs, ht, ?_, rfl, fun _ => rfl⟩
  rw [lag_of_fresh rfl]
  simp only [positioned, val_bytes16, Nat.mod_mod, Nat.sub_zero]

/-- The clamp (R131). -/
theorem clamp_le (x : Instance) (count : Nat) :
    clamp x count ≤ count ∧ (clamp x count ≠ 0 → x.pos + clamp x count ≤ len x) := by
  unfold clamp
  split
  · simp
  · omega

end Sys2Proof.Machine
end

