-- ==== Sys2Proof/Laws/Exec.lean ====
section
/-! SUPPORT. Once for `exec`: everything a command can do. Invariants and whole-machine claims follow from these cases. -/

namespace Sys2Proof.Machine

/-- A command that leaves its instance alone: it only responds, with `OK` or with a fault that is not the source's. -/
def OnlyResponds (s t : State) : Prop :=
  ∃ st v, st ≠ .sourceFault ∧ t = respond st v s

/-- A successful `INIT` (R111). -/
def Loads (i : Instr) (s t : State) : Prop :=
  ∃ key iv hdr srclen, i = .init key iv hdr srclen ∧ s.inst = none ∧ hdr ≤ srclen ∧ srclen ≤ s.width.posMax ∧
    ∃ y : Instance, y = (loadInstance Config.E key iv hdr srclen).1 ∧
      t = { s with inst := some y, events := s.events ++ [.enc y.key y.ctr y.ks, .rsp .ok 0] }

/-- A successful `RELEASE` (R112). -/
def Releases (i : Instr) (s t : State) : Prop :=
  ∃ x, i = .release ∧ s.inst = some x ∧ t = respond .ok 0 { s with inst := none }

/-- A successful position set (R110). -/
def Repositions (i : Instr) (s t : State) : Prop :=
  ∃ x n, i.cmd ∈ [Cmd.setpos, .seekBegin, .seekCur, .seekEnd] ∧ s.inst = some x ∧ n ≤ s.width.posMax ∧ t = repositioned s x n

/-- A `READ` that makes its source request (R133, R135). -/
def Reads (i : Instr) (s t : State) : Prop :=
  ∃ x count, i = .read count ∧ s.inst = some x ∧ clamp x count ≠ 0 ∧
    t = readAnswered Config.E x (clamp x count)
      { s with source := (srcRead s.width (x.pos + x.hdr) (clamp x count) s.source).2 }
      (srcRead s.width (x.pos + x.hdr) (clamp x count) s.source).1

theorem takeFault_onlyResponds {s : State} {st : Status} (h : st ≠ .sourceFault) (v : Nat) :
    OnlyResponds s (takeFault st v s) := ⟨st, v, h, rfl⟩

theorem setPosition_repositions {x : Instance} {s : State} (t : Int) :
    OnlyResponds s (setPosition Config.E x t s) ∨
      ∃ n, n ≤ s.width.posMax ∧ setPosition Config.E x t s = repositioned s x n := by
  by_cases h : 0 ≤ t ∧ t ≤ (s.width.posMax : Int)
  · refine .inr ⟨t.toNat, by omega, ?_⟩
    rw [setPosition_legal h]
    simp [respond, emit, repositioned]
  · rw [setPosition_illegal h]
    exact .inl (takeFault_onlyResponds (by decide) _)

/-- Every command answers a next state, and it is one of these. -/
theorem exec_cases (i : Instr) (s : State) :
    ∃ t, exec i s = .next t ∧
      (OnlyResponds s t ∨ Loads i s t ∨ Releases i s t ∨ Repositions i s t ∨ Reads i s t) := by
  have seek : ∀ (j : Instr) (x : Instance) (n : Int), j.cmd ∈ [Cmd.setpos, .seekBegin, .seekCur, .seekEnd] →
      s.inst = some x → ∃ t, Host.Outcome.next (φ := Fault) (ρ := Refusal) (setPosition Config.E x n s) = .next t ∧
        (OnlyResponds s t ∨ Loads j s t ∨ Releases j s t ∨ Repositions j s t ∨ Reads j s t) := by
    intro j x n hj hx
    refine ⟨_, rfl, ?_⟩
    obtain h | ⟨m, hm, h⟩ := setPosition_repositions (s := s) n
    · exact .inl h
    · exact .inr (.inr (.inr (.inl ⟨x, m, hj, hx, hm, h⟩)))
  have fault : ∀ (j : Instr) (st : Status), st ≠ .sourceFault →
      ∃ t, Host.Outcome.next (φ := Fault) (ρ := Refusal) (takeFault st 0 s) = .next t ∧
        (OnlyResponds s t ∨ Loads j s t ∨ Releases j s t ∨ Repositions j s t ∨ Reads j s t) :=
    fun j st h => ⟨_, rfl, .inl (takeFault_onlyResponds h 0)⟩
  cases i with
  | init key iv hdr srclen =>
    simp only [exec, execInit, initWith]
    cases hs : s.inst with
    | some x => exact fault _ _ (by decide)
    | none =>
      by_cases hl : legalConfig s.width hdr srclen = true
      · simp only [hl, if_true]
        obtain ⟨h1, h2⟩ : hdr ≤ srclen ∧ srclen ≤ s.width.posMax := by
          simpa only [legalConfig, Bool.and_eq_true, decide_eq_true_eq] using hl
        refine ⟨_, rfl, .inr (.inl ⟨key, iv, hdr, srclen, rfl, hs, h1, h2, _, rfl, ?_⟩)⟩
        simp [respond, emit, loadInstance, placeAt, ksRefill, ctrReset]
      · simp only [if_neg hl]
        exact fault _ _ (by decide)
  | release =>
    simp only [exec, execRelease]
    cases hs : s.inst with
    | none => rw [whenConfigured_none hs]; exact fault _ _ (by decide)
    | some x => rw [whenConfigured_some hs]; exact ⟨_, rfl, .inr (.inr (.inl ⟨x, rfl, hs, rfl⟩))⟩
  | getlen =>
    simp only [exec, execGetlen]
    cases hs : s.inst with
    | none => rw [whenConfigured_none hs]; exact fault _ _ (by decide)
    | some x => rw [whenConfigured_some hs]; exact ⟨_, rfl, .inl ⟨.ok, _, by decide, rfl⟩⟩
  | getpos =>
    simp only [exec, execGetpos]
    cases hs : s.inst with
    | none => rw [whenConfigured_none hs]; exact fault _ _ (by decide)
    | some x => rw [whenConfigured_some hs]; exact ⟨_, rfl, .inl ⟨.ok, _, by decide, rfl⟩⟩
  | setpos p =>
    simp only [exec, execSetpos, setposWith]
    cases hs : s.inst with
    | none => rw [whenConfigured_none hs]; exact fault _ _ (by decide)
    | some x => rw [whenConfigured_some hs]; exact seek _ x _ (by simp [Instr.cmd]) hs
  | seekBegin off =>
    simp only [exec, execSeekBegin, seekWith]
    cases hs : s.inst with
    | none => rw [whenConfigured_none hs]; exact fault _ _ (by decide)
    | some x => rw [whenConfigured_some hs]; exact seek _ x _ (by simp [Instr.cmd]) hs
  | seekCur off =>
    simp only [exec, execSeekCur, seekWith]
    cases hs : s.inst with
    | none => rw [whenConfigured_none hs]; exact fault _ _ (by decide)
    | some x => rw [whenConfigured_some hs]; exact seek _ x _ (by simp [Instr.cmd]) hs
  | seekEnd off =>
    simp only [exec, execSeekEnd, seekWith]
    cases hs : s.inst with
    | none => rw [whenConfigured_none hs]; exact fault _ _ (by decide)
    | some x => rw [whenConfigured_some hs]; exact seek _ x _ (by simp [Instr.cmd]) hs
  | read count =>
    simp only [exec, execRead, readWith]
    cases hs : s.inst with
    | none => rw [whenConfigured_none hs]; exact fault _ _ (by decide)
    | some x =>
      rw [whenConfigured_some hs, readInstance]
      split
      · exact ⟨_, rfl, .inl ⟨.ok, _, by decide, rfl⟩⟩
      · rename_i hc
        exact ⟨_, rfl, .inr (.inr (.inr (.inr ⟨x, count, rfl, hs, hc, rfl⟩)))⟩
  | write count => exact fault _ _ (by decide)
  | setlen length => exact fault _ _ (by decide)
  | flush => exact fault _ _ (by decide)

end Sys2Proof.Machine
end

