-- ==== Sys2Proof/Laws/PerInstr.lean ====
section
/-! SUPPORT. Per command: the frame of every command has the length its opcode byte decides (rule R74 of 30_encoding.md). -/

namespace Sys2Proof.Laws.FrameLength

open Sys2Proof Sys2Proof.Machine

/-- The frame's length is what the opcode byte decides, and the opcode byte selects the command. -/
def Statement (i : Instr) : Prop :=
  (∀ w : Config.Width, (encode w i).length = framelen w i.cmd.op) ∧ Cmd.ofOp i.cmd.op = some i.cmd

theorem init (key iv : Bytes16) (hdr srclen : Nat) : Statement (.init key iv hdr srclen) :=
  ⟨fun w => by
    simp only [encode, encodeOperands, Instr.cmd, List.length_cons, List.length_append, Vector.length_toList, leBytes_length]
    change _ = 1 + 16 + 16 + w.pb + w.pb
    simp only [BLK_eq]
    omega, rfl⟩
theorem release : Statement .release := ⟨fun _ => rfl, rfl⟩
theorem getlen : Statement .getlen := ⟨fun _ => rfl, rfl⟩
theorem getpos : Statement .getpos := ⟨fun _ => rfl, rfl⟩
theorem setpos (p : Nat) : Statement (.setpos p) := ⟨fun _ => cons_leBytes_length _ _ _, rfl⟩
theorem seekBegin (off : Int) : Statement (.seekBegin off) := ⟨fun _ => cons_leBytes_length _ _ _, rfl⟩
theorem seekCur (off : Int) : Statement (.seekCur off) := ⟨fun _ => cons_leBytes_length _ _ _, rfl⟩
theorem seekEnd (off : Int) : Statement (.seekEnd off) := ⟨fun _ => cons_leBytes_length _ _ _, rfl⟩
theorem read (count : Nat) : Statement (.read count) := ⟨fun _ => cons_leBytes_length _ _ _, rfl⟩
theorem write (count : Nat) : Statement (.write count) := ⟨fun _ => cons_leBytes_length _ _ _, rfl⟩
theorem setlen (length : Nat) : Statement (.setlen length) := ⟨fun _ => cons_leBytes_length _ _ _, rfl⟩
theorem flush : Statement .flush := ⟨fun _ => rfl, rfl⟩

end Sys2Proof.Laws.FrameLength
end

