-- ==== Sys2Proof/Laws/Frame.lean ====
section
/-! SUPPORT. How frames are collected and run: what `collect`, `fetch` and `step` do on each shape of the input (R74, R172, R180). -/

namespace Sys2Proof.Machine

theorem collect_bytes (k : Nat) (got bs : List Byte) (rest : List PortInput) (h : bs.length = k) :
    collect k got (bs.map .byte ++ rest) = .frame (got ++ bs) rest := by
  induction bs generalizing k got with
  | nil => subst h; simp [collect]
  | cons b bs ih =>
    obtain ⟨k, rfl⟩ : ∃ j, k = j + 1 := ⟨bs.length, by simpa using h.symm⟩
    simpa [collect] using ih k (got ++ [b]) (by simpa using h)

theorem collect_short (k : Nat) (got bs : List Byte) (h : bs.length < k) :
    collect k got (bs.map .byte) = .waiting := by
  induction bs generalizing k got with
  | nil => obtain ⟨k, rfl⟩ : ∃ j, k = j + 1 := ⟨k - 1, by simp at h; omega⟩; rfl
  | cons b bs ih =>
    obtain ⟨k, rfl⟩ : ∃ j, k = j + 1 := ⟨k - 1, by simp at h; omega⟩
    simpa [collect] using ih k (got ++ [b]) (by simp at h; omega)

theorem collect_reset (k : Nat) (got bs : List Byte) (n : Nat) (rest : List PortInput) (h : bs.length < k) :
    collect k got (bs.map .byte ++ .reset n :: rest) = .reset rest := by
  induction bs generalizing k got with
  | nil => obtain ⟨k, rfl⟩ : ∃ j, k = j + 1 := ⟨k - 1, by simp at h; omega⟩; rfl
  | cons b bs ih =>
    obtain ⟨k, rfl⟩ : ∃ j, k = j + 1 := ⟨k - 1, by simp at h; omega⟩
    simpa [collect] using ih k (got ++ [b]) (by simp at h; omega)

theorem framelen_pos (w : Config.Width) (op : Byte) : 1 ≤ framelen w op := by
  unfold framelen
  split
  · rename_i c _; cases c <;> simp [Cmd.format, Format.length]; omega
  · exact le_refl 1

/-- What `collect` leaves for later comes from what it was given: the bytes aside, every input is one of those. -/
theorem collect_inputs (k : Nat) (got : List Byte) (l : List PortInput) (src : Source) :
    (∀ f rest, collect k got l = .frame f rest → .source src ∈ rest → .source src ∈ l) ∧
    (∀ rest, collect k got l = .reset rest → .source src ∈ rest → .source src ∈ l) ∧
    (∀ src' rest, collect k got l = .attach src' rest →
      (PortInput.source src' ∈ l) ∧ (.source src ∈ rest → .source src ∈ l)) := by
  induction l generalizing k got with
  | nil => cases k <;> simp [collect]
  | cons i l ih =>
    cases k with
    | zero => simp [collect]
    | succ k =>
      cases i with
      | byte b =>
        obtain ⟨h1, h2, h3⟩ := ih k (got ++ [b])
        simp only [collect]
        exact ⟨fun f r h m => .tail _ (h1 f r h m), fun r h m => .tail _ (h2 r h m),
          fun s' r h => ⟨.tail _ (h3 s' r h).1, fun m => .tail _ ((h3 s' r h).2 m)⟩⟩
      | reset n => simp [collect]
      | source s' => simp [collect]; exact fun h => .inr h
      | cipherSilent n =>
        obtain ⟨h1, h2, h3⟩ := ih (k + 1) got
        simp only [collect]
        exact ⟨fun f r h m => .tail _ (h1 f r h m), fun r h m => .tail _ (h2 r h m),
          fun s' r h => ⟨.tail _ (h3 s' r h).1, fun m => .tail _ ((h3 s' r h).2 m)⟩⟩

theorem fetch_inputs (w : Config.Width) (l : List PortInput) (src : Source) :
    (∀ f rest, fetch w l = .frame f rest → .source src ∈ rest → .source src ∈ l) ∧
    (∀ rest, fetch w l = .reset rest → .source src ∈ rest → .source src ∈ l) ∧
    (∀ src' rest, fetch w l = .attach src' rest →
      (PortInput.source src' ∈ l) ∧ (.source src ∈ rest → .source src ∈ l)) := by
  induction l with
  | nil => simp [fetch]
  | cons i l ih =>
    cases i with
    | byte b =>
      obtain ⟨h1, h2, h3⟩ := collect_inputs (framelen w b - 1) [b] l src
      simp only [fetch]
      exact ⟨fun f r h m => .tail _ (h1 f r h m), fun r h m => .tail _ (h2 r h m),
        fun s' r h => ⟨.tail _ (h3 s' r h).1, fun m => .tail _ ((h3 s' r h).2 m)⟩⟩
    | reset n => simp [fetch]
    | source s' => simp [fetch]; exact fun h => .inr h
    | cipherSilent n =>
      obtain ⟨h1, h2, h3⟩ := ih
      simp only [fetch]
      exact ⟨fun f r h m => .tail _ (h1 f r h m), fun r h m => .tail _ (h2 r h m),
        fun s' r h => ⟨.tail _ (h3 s' r h).1, fun m => .tail _ ((h3 s' r h).2 m)⟩⟩

/-- A command that nothing keeps from its response ends as it would by itself. -/
theorem interruptible_undisturbed {s t : State} (h : undisturbed s t s.input) : interruptible s (.next t) = .next t := by
  unfold interruptible
  split
  · rename_i after k rest hr hi
    cases hr
    have hn := h.2 k rest hi
    have hc : cipherRequest s t k = none := by
      unfold cipherRequest
      split
      · rename_i key block ks he; exact absurd he (hn key block ks)
      · rfl
    rw [hc]
  · rename_i after k rest hr hi
    cases hr
    have hk := h.1 k rest hi
    rw [if_neg (by simpa [newEvents] using hk)]
  · rfl

theorem afterOffered_bytes (bs : List Byte) (rest : List PortInput) : afterOffered (bs.map .byte ++ rest) = afterOffered rest := by
  induction bs with
  | nil => rfl
  | cons b bs ih => simpa [afterOffered] using ih

/-- What is offered before the reset or the change of the source goes, and nothing else. -/
theorem afterOffered_inputs (l : List PortInput) (src : Source) (h : .source src ∈ afterOffered l) : .source src ∈ l := by
  induction l with
  | nil => exact h
  | cons i l ih =>
    cases i with
    | byte b => exact .tail _ (ih h)
    | cipherSilent k => exact .tail _ (ih h)
    | reset k => exact h
    | source s' => exact h

/-- The one way a frame can fail to run: it decodes to a reserved opcode, or it is not complete. -/
theorem runFrame_ok {bs : List Byte} {i : Instr} {rest : List Byte} {s : State} (h : decode s.width bs = .ok (i, rest)) :
    runFrame bs s = exec i s := by simp only [runFrame, h]

/-- A complete frame at the head of the input is what `fetch` gives (R74). -/
theorem fetch_frame {bs : List Byte} {i : Instr} {w : Config.Width} (h : decode w bs = .ok (i, [])) (rest : List PortInput) :
    fetch w (bs.map .byte ++ rest) = .frame bs rest := by
  cases bs with
  | nil => simp [decode] at h
  | cons op l =>
    simp only [decode] at h
    split at h
    · cases h
    · split at h
      · cases h
      · simp only [Except.ok.injEq, Prod.mk.injEq, List.drop_eq_nil_iff, List.length_cons] at h
        have hp := framelen_pos w op
        simp only [List.length_cons] at *
        have := collect_bytes (framelen w op - 1) [op] l rest (by omega)
        simpa [fetch] using this

/-- Everything a step can be (R11, R172, R180, R191). -/
theorem step_cases {s t : State} (h : step s = .next t) :
    (∃ k rest, s.pending ≠ none ∧ afterOffered s.input = .reset k :: rest ∧ t = hardwareReset { s with input := rest }) ∨
    (∃ src rest, s.pending ≠ none ∧ afterOffered s.input = .source src :: rest ∧
      t = { s with source := src, input := rest }) ∨
    (∃ rest, s.pending = none ∧ fetch s.width s.input = .reset rest ∧ t = hardwareReset { s with input := rest }) ∨
    (∃ src rest, s.pending = none ∧ fetch s.width s.input = .attach src rest ∧
      t = { s with source := src, input := rest }) ∨
    (∃ bytes rest u, s.pending = none ∧ fetch s.width s.input = .frame bytes rest ∧
      runFrame bytes { s with input := rest } = .next u ∧
      (t = u ∨ (∃ k r, rest = .reset k :: r ∧ t = cutShort { s with input := rest } u k r) ∨
        ∃ k r key block, rest = .cipherSilent k :: r ∧ t = stalled { s with input := rest } u k (.cipher key block) r)) := by
  unfold step at h
  cases hp : s.pending with
  | some q =>
    simp only [hp, stepWaiting] at h
    split at h
    · rename_i k rest hi
      exact .inl ⟨k, rest, by simp, hi, by simpa using h.symm⟩
    · rename_i src rest hi
      exact .inr (.inl ⟨src, rest, by simp, hi, by simpa using h.symm⟩)
    · cases h
  | none =>
    simp only [hp, stepReady] at h
    split at h
    · rename_i bytes rest hf
      refine .inr (.inr (.inr (.inr ⟨bytes, rest, ?_⟩)))
      unfold interruptible at h
      split at h
      · rename_i after k r hr hi
        refine ⟨after, rfl, hf, hr, ?_⟩
        unfold cipherRequest at h
        split at h
        · rename_i q hq
          split at hq
          · cases hq
            exact .inr (.inr ⟨k, r, _, _, hi, by simpa using h.symm⟩)
          · cases hq
        · exact .inl (by simpa using h.symm)
      · rename_i after k r hr hi
        refine ⟨after, rfl, hf, hr, ?_⟩
        split at h
        · exact .inr (.inl ⟨k, r, hi, by simpa using h.symm⟩)
        · exact .inl (by simpa using h.symm)
      · exact ⟨t, rfl, hf, h, .inl rfl⟩
    · rename_i rest hf
      exact .inr (.inr (.inl ⟨rest, rfl, hf, by simpa using h.symm⟩))
    · rename_i src rest hf
      exact .inr (.inr (.inr (.inl ⟨src, rest, rfl, hf, by simpa using h.symm⟩)))
    · cases h

end Sys2Proof.Machine
end

