-- ==== Sys2Proof/Tests/Slice0.lean ====
section
/-! SUPPORT. Tests, with the expected values of `95_test_vectors.md` (its ids V and P) or of the rule named, and the witnesses
of the obligations that have hypotheses. -/

namespace Sys2Proof.Tests

open Sys2Proof.Machine

set_option maxRecDepth 20000

/-! Fixtures of 95_test_vectors.md, section 1. -/

/-- The part of the vectors, `POSW = 64`. -/
abbrev part : Config.Width := Config.partWidth

/-- A part with `POSW = 16`. -/
def narrow : Config.Width := { pb := 2, one_le := by decide }

/-- Bytes from the front, zero after them. -/
def pad (l : List Byte) : Bytes16 := Vector.ofFn fun i => l.getD i.val 0

/-- `xx*16`. -/
def rep (b : Byte) : Bytes16 := Vector.ofFn fun _ => b

def Z : Bytes16 := rep 0
def K1 : Bytes16 := Vector.ofFn fun i => BitVec.ofNat 8 i.val
def K2 : Bytes16 := Vector.ofFn fun i => BitVec.ofNat 8 (15 - i.val)

/-- `E_xor`. -/
def xorE : Config.Cipher := fun k b => Vector.ofFn fun i => k[i] ^^^ b[i]

/-- `E_rot`. -/
def rotE : Config.Cipher := fun k b =>
  Vector.ofFn fun i => b.toList.getD ((i.val + 1) % 16) 0 + 3 * k[i] + BitVec.ofNat 8 i.val

/-- `MEM[a] = (m * a + c) mod 256` for `a` below `n`. -/
def memory (m c n : Nat) : List Byte := (List.range n).map fun a => BitVec.ofNat 8 (m * a + c)

/-- After `INIT` from reset, over the ideal source of these bytes. -/
def started (E : Config.Cipher) (key iv : Bytes16) (hdr srclen : Nat) (bytes : List Byte) : State :=
  initWith E key iv hdr srclen { State.reset with source := Source.ofBytes bytes }

/-- The setup of V40. -/
def v40 : State := started xorE K1 Z 0 64 (memory 13 5 67)

/-- The setup of V45. -/
def v45 : State := started xorE K1 Z 4 16 []

/-- `POS`, `FRESH` and `CTR[0]`. -/
def glance (s : State) : Option (Nat × Bool × Byte) := s.inst.map fun x => (x.pos, x.fresh, x.ctr[0])

/-- The last event. -/
def answer (s : State) : Option Event := s.events.getLast?

/-! WellFormed refuses what no frame carries (R73). -/

theorem test_wf_init_hdr : (Instr.init Z Z (2 ^ 64) 0).wellFormed part = false := by decide
theorem test_wf_init_srclen : (Instr.init Z Z 0 (2 ^ 64)).wellFormed part = false := by decide
theorem test_wf_setpos : (Instr.setpos (2 ^ 64)).wellFormed part = false ∧ (Instr.setpos (2 ^ 64 - 1)).wellFormed part = true := by decide
theorem test_wf_seekBegin_high : (Instr.seekBegin (2 ^ 63)).wellFormed part = false := by decide
theorem test_wf_seekCur_low : (Instr.seekCur (-2 ^ 63 - 1)).wellFormed part = false := by decide
theorem test_wf_seekEnd_low : (Instr.seekEnd (-2 ^ 63 - 1)).wellFormed part = false ∧ (Instr.seekEnd (-2 ^ 63)).wellFormed part = true := by
  decide
theorem test_wf_read : (Instr.read (2 ^ 64)).wellFormed part = false := by decide
theorem test_wf_write : (Instr.write (2 ^ 64)).wellFormed part = false := by decide
theorem test_wf_setlen : (Instr.setlen (2 ^ 64)).wellFormed part = false := by decide

/-! Decoding (V35, V36). -/

theorem test_decode_init : decode part (0x01 :: (List.range 16).map (BitVec.ofNat 8) ++ [0xfe, 0xff] ++ List.replicate 14 0 ++
    [0x08, 0, 0, 0, 0, 0, 0, 0] ++ [0x30, 0, 0, 0, 0, 0, 0, 0]) = .ok (.init K1 (pad [0xfe, 0xff]) 8 48, []) := by decide
theorem test_decode_release : decode part [0x02] = .ok (.release, []) := by decide
theorem test_decode_getlen : decode part [0x10] = .ok (.getlen, []) := by decide
theorem test_decode_getpos : decode part [0x11] = .ok (.getpos, []) := by decide
theorem test_decode_setpos : decode part [0x12, 0, 0, 0, 0, 0, 0, 0, 0x80] = .ok (.setpos 9223372036854775808, []) := by decide
theorem test_decode_seekBegin : decode part [0x20, 0x21, 0, 0, 0, 0, 0, 0, 0] = .ok (.seekBegin 33, []) := by decide
theorem test_decode_seekCur : decode part [0x21, 0, 0, 0, 0, 0, 0, 0, 0x80] = .ok (.seekCur (-9223372036854775808), []) := by decide
theorem test_decode_seekEnd :
    decode part [0x22, 0xd8, 0xff, 0xff, 0xff, 0xff, 0xff, 0xff, 0xff] = .ok (.seekEnd (-40), []) := by decide
theorem test_decode_read :
    decode part [0x30, 0xff, 0xff, 0xff, 0xff, 0xff, 0xff, 0xff, 0xff] = .ok (.read 18446744073709551615, []) := by decide
theorem test_decode_write : decode part [0x40, 0x10, 0, 0, 0, 0, 0, 0, 0] = .ok (.write 16, []) := by decide
theorem test_decode_setlen : decode part [0x41, 0, 0, 0, 0, 0, 0, 0, 0] = .ok (.setlen 0, []) := by decide
theorem test_decode_flush : decode part [0x42] = .ok (.flush, []) := by decide
theorem test_decode_reserved : decode part [0x23, 0x11] = .error (.reserved 0x23) ∧ decode part [0x00] = .error (.reserved 0) := by decide
theorem test_decode_operand_is_no_opcode : decode part [0x12, 0x11, 0, 0, 0, 0, 0, 0, 0] = .ok (.setpos 17, []) := by decide
theorem test_decode_rest : decode part [0x42, 0x11] = .ok (.flush, [0x11]) := by decide
theorem test_opcodes_differ : opcodeTable.Pairwise fun a b => a.1 ≠ b.1 ∧ a.2 ≠ b.2 := by decide
theorem test_opcodes_are_the_tables : ∀ r ∈ opcodeTable, r.2.op = r.1 := by decide

/-- R72: the group 2 opcodes are the seeks, and `fn` numbers their origins. -/
theorem test_seek_origins : opGroup 0x22 = 2 ∧ originOfFn (opFn 0x20) = some .fromBegin ∧
    originOfFn (opFn 0x21) = some .fromCurrent ∧ originOfFn (opFn 0x22) = some .fromEnd ∧ originOfFn (opFn 0x23) = none := by
  decide

/-- R71, R74 for `POSW = 16`: two operand bytes, and `INIT` in 37. -/
theorem test_narrow_frames : decode narrow [0x20, 0xff, 0xff, 0x10] = .ok (.seekBegin (-1), [0x10]) ∧ framelen narrow 0x01 = 37 ∧
    (Instr.setpos 65536).wellFormed narrow = false := by decide

/-! The text form (R77, R78). -/

theorem test_line_init :
    readLine part "INIT key=000102030405060708090a0b0c0d0e0f, iv=ff000000000000000000000000000000, hdr=8, srclen=40".toList =
      .command (.init K1 (pad [0xff]) 8 40) := by decide
theorem test_line_seek : readLine part "SEEK -0x10, END ; from the end".toList = .command (.seekEnd (-16)) := by decide
theorem test_line_unsigned_takes_no_sign : readLine part "SETPOS -1".toList = .malformed := by decide
theorem test_line_comment : readLine part "  ; nothing".toList = .blank := by decide

/-! The counter (V1 to V25). -/

theorem test_inc_no_carry : counterInc (pad [0xfe]) = pad [0xff] := by decide
theorem test_inc_stops : counterInc (pad [0, 0xff]) = pad [1, 0xff] := by decide
theorem test_inc_carry_two : counterInc (pad [0xff, 0xff]) = pad [0, 0, 1] := by decide
theorem test_inc_wraps : counterInc (rep 0xff) = Z := by decide
theorem test_reset_multi_byte : counterReset Z 65536 = pad [0, 0, 1] ∧ counterReset K1 256 =
    #v[0, 2, 2, 3, 4, 5, 6, 7, 8, 9, 10, 11, 12, 13, 14, 15] := by decide
theorem test_reset_wraps : counterReset (rep 0xff) 65536 = pad [0xff, 0xff] := by decide
theorem test_reset_largest_block : counterReset Z (blockIndex (2 ^ 63 - 1)) =
    pad [0xff, 0xff, 0xff, 0xff, 0xff, 0xff, 0xff, 7] := by decide
theorem test_reset_iterated : counterResetIter (pad [0xfe, 0xff]) 3 = pad [1, 0, 1] := by decide

/-! The keystream (V30 to V32). -/

/-- An instance that only its key and counter matter of. -/
def keyed (key ctr : Bytes16) : Instance :=
  { key := key, iv := Z, hdr := 0, srclen := 0, ctr := ctr, ks := Z, pos := 0, fresh := true }

theorem test_refill_xor : (ksRefill xorE (keyed K2 (pad [0xff, 0xff, 0xff, 0xff]))).1.ks =
    #v[0xf0, 0xf1, 0xf2, 0xf3, 0x0b, 0x0a, 9, 8, 7, 6, 5, 4, 3, 2, 1, 0] := by decide
theorem test_refill_rot : (ksRefill rotE (keyed K1 (pad [1]))).1.ks =
    #v[0, 4, 8, 0xc, 0x10, 0x14, 0x18, 0x1c, 0x20, 0x24, 0x28, 0x2c, 0x30, 0x34, 0x38, 0x3d] := by decide

/-! Commands, one step each (V40, V45, V47). -/

theorem test_init_loads : (started xorE K1 (pad [0xfe, 0xff]) 8 48 []).inst =
    some { key := K1, iv := pad [0xfe, 0xff], hdr := 8, srclen := 48, ctr := pad [0xfe, 0xff], pos := 0, fresh := true,
           ks := #v[0xfe, 0xfe, 2, 3, 4, 5, 6, 7, 8, 9, 10, 11, 12, 13, 14, 15] } := by decide
theorem test_init_range : started xorE K1 Z 17 16 [] =
    { State.reset with events := [.rsp .configRange 0] } := by decide
theorem test_release : execRelease v45 = .next { v45 with inst := none, events := v45.events ++ [.rsp .ok 0] } := by rfl
theorem test_getlen : execGetlen v45 = .next { v45 with events := v45.events ++ [.rsp .ok 12] } := by rfl
theorem test_getpos : execGetpos (setposWith xorE 70 v40) =
    .next { setposWith xorE 70 v40 with events := (setposWith xorE 70 v40).events ++ [.rsp .ok 70] } := by rfl
theorem test_setpos_largest : glance (setposWith xorE 9223372036854775807 v45) = some (9223372036854775807, true, 0xff) ∧
    answer (setposWith xorE 9223372036854775807 v45) = some (.rsp .ok 9223372036854775807) := by decide
theorem test_setpos_beyond : setposWith xorE 9223372036854775808 v45 =
    { v45 with events := v45.events ++ [.rsp .positionRange 0] } := by decide

/-- R8, R28 for `POSW = 16`: `POS_MAX` is 32767. -/
theorem test_narrow_positions :
    answer (setposWith xorE 32768 { v45 with width := narrow }) = some (.rsp .positionRange 0) ∧
    answer (setposWith xorE 32767 { v45 with width := narrow }) = some (.rsp .ok 32767) := by decide

theorem test_seekBegin_negative : seekWith xorE .fromBegin (-1) v45 =
    { v45 with events := v45.events ++ [.rsp .positionRange 0] } := by decide
theorem test_seekBegin : glance (seekWith xorE .fromBegin 33 v45) = some (33, true, 2) := by decide
theorem test_seekCur_back : glance (seekWith xorE .fromCurrent (-5) (setposWith xorE 20 v45)) = some (15, true, 0) := by decide
theorem test_seekCur_no_wrap : answer (seekWith xorE .fromCurrent 9223372036854775807 (setposWith xorE 17 v45)) =
    some (.rsp .positionRange 0) := by decide
theorem test_seekEnd_beyond_end : glance (seekWith xorE .fromEnd 5 v45) = some (17, true, 1) := by decide
theorem test_seekEnd_before_start : answer (seekWith xorE .fromEnd (-13) v45) = some (.rsp .positionRange 0) := by decide

/-- V40e: after the sixteenth byte the cipher request, then the byte of the next block. -/
theorem test_read_crosses : (readWith xorE 17 v40).events.drop 19 =
    [.enc K1 (pad [1]) #v[1, 1, 2, 3, 4, 5, 6, 7, 8, 9, 10, 11, 12, 13, 14, 15], .out 0xd4, .rsp .ok 17] := by decide

/-- V40l: the keystream index follows the logical position, the address is shifted by the header. -/
theorem test_read_header : (readWith xorE 4 (setposWith xorE 14 (started xorE K1 Z 3 67 (memory 13 5 67)))).events.drop 4 =
    [.src 17 4 (.ok [0xe2, 0xef, 0xfc, 0x09]), .out 0xec, .out 0xe0,
     .enc K1 (pad [1]) #v[1, 1, 2, 3, 4, 5, 6, 7, 8, 9, 10, 11, 12, 13, 14, 15], .out 0xfd, .out 0x08, .rsp .ok 4] := by decide

/-- P1 under `E_rot`. -/
theorem test_read_rot : (outBytes (readWith rotE 32 (started rotE Z Z 0 32 (List.replicate 32 0xff))).events).drop 14 =
    [0xf1, 0xf0, 0xff, 0xfe, 0xfd, 0xfc, 0xfb, 0xfa, 0xf9, 0xf8, 0xf7, 0xf6, 0xf5, 0xf4, 0xf3, 0xf2, 0xf1, 0xef] := by decide

/-- V40g's state before: lagging at 32. -/
theorem test_read_ends_lagging : glance (readWith xorE 16 (setposWith xorE 16 v40)) = some (32, false, 1) ∧
    ((readWith xorE 16 (setposWith xorE 16 v40)).inst.map lag) = some 1 := by decide

/-- V50 to V52: no state element changes, with or without an instance. -/
theorem test_write : execWrite 16 v45 = .next (faulted .capabilityViolation 0 v45) := by rfl
theorem test_setlen : execSetlen 0 State.reset = .next (faulted .capabilityViolation 0 State.reset) := by rfl
theorem test_flush : execFlush v40 = .next (faulted .capabilityViolation 0 v40) := by rfl

/-- V37j. -/
theorem test_response_frame : responseFrame part .sourceFault 13 = [7, 13, 0, 0, 0, 0, 0, 0, 0] := by decide

/-! The host's interface: words of the opcode table, as the first command after reset. -/

theorem test_table_word : decodeTableWord 8 0x20 = some (.seekBegin 0) ∧ decodeTableWord 8 0x23 = none ∧
    decodeTableWord 72 0x0f12 = some (.setpos 15) := by decide
theorem test_first_step : step (State.reset.withFetchWord 8 0x11) = .next (faulted .notConfigured 0 State.reset) := by rfl
theorem test_first_step_reserved :
    step (State.reset.withFetchWord 8 0x00) = .next (faulted .illegalCommand 0 State.reset) := by rfl

/-- R191: what is offered to a block that waits is not accepted, and the reset that comes is taken. -/
theorem test_reset_frees_waiting :
    step { State.reset with pending := some (.source 0 1), input := [.byte 0x11, .reset 0, .byte 0x42] } =
      .next { State.reset with input := [.byte 0x42] } := by rfl

/-! Witnesses: concrete states and operands that meet the hypotheses of each obligation that has any. -/

/-- An instance in the middle of block 1, not fresh. -/
def goodX : Instance :=
  { key := K1, iv := pad [0xfe, 0xff], hdr := 8, srclen := 48, ctr := pad [0xff, 0xff],
    ks := Config.E K1 (pad [0xff, 0xff]), pos := 17, fresh := false }

/-- The same, lagging at a boundary. -/
def laggingX : Instance := { goodX with pos := 32 }

/-- The same at a boundary after a position set. -/
def freshX : Instance := { goodX with pos := 16, fresh := true }

/-- The same at the largest position. -/
def farX : Instance :=
  { goodX with pos := 0x7fffffffffffffff, ctr := counterReset (pad [0xfe, 0xff]) (2 ^ 59 - 1),
               ks := Config.E K1 (counterReset (pad [0xfe, 0xff]) (2 ^ 59 - 1)) }

/-- A state with an instance, over an ideal source of 48 bytes. -/
def holding (x : Instance) : State := { State.reset with inst := some x, source := Source.ofBytes (memory 7 3 48) }

/-- The same over a source with scripted answers. -/
def scripted (x : Instance) (replies : List SrcReply) : State :=
  { holding x with source := { Source.empty with script := replies } }

/-- The same with inputs waiting. -/
def given (s : State) (l : List PortInput) : State := { s with input := l }

/-- A block that waits on a source request. -/
def stuck : State := { holding goodX with pending := some (.source 25 1) }

theorem goodX_inv : goodX.Inv Config.E part :=
  ⟨by decide, by decide, by decide, by decide, rfl, by decide⟩
theorem laggingX_inv : laggingX.Inv Config.E part :=
  ⟨by decide, by decide, by decide, by decide, rfl, by decide⟩
theorem freshX_inv : freshX.Inv Config.E part :=
  ⟨by decide, by decide, by decide, by decide, rfl, by decide⟩
theorem farX_inv : farX.Inv Config.E part :=
  ⟨by decide, by decide, by decide, by decide, rfl, by decide⟩

theorem holding_inv (x : Instance) (h : x.Inv Config.E part) (l : List PortInput) (hl : ∀ src, PortInput.source src ∉ l) :
    (given (holding x) l).Inv :=
  ⟨fun _ hy => by cases hy; exact h, fun _ _ hp => (by cases hp),
   (by decide : (Source.ofBytes (memory 7 3 48)).mem.wf), fun src hs => absurd hs (hl src)⟩

theorem scripted_inv (x : Instance) (h : x.Inv Config.E part) (r : List SrcReply) : (scripted x r).Inv :=
  ⟨fun _ hy => by cases hy; exact h, fun _ _ hp => (by cases hp), (by decide : Memory.wf []), fun _ hs => by cases hs⟩

/-- Witness of the statements whose only premise is the invariant, in states of every kind of position. -/
theorem witness_invariant : (holding goodX).Inv ∧ (holding laggingX).Inv ∧ (holding freshX).Inv ∧ (holding farX).Inv :=
  ⟨holding_inv _ goodX_inv [] (by simp), holding_inv _ laggingX_inv [] (by simp), holding_inv _ freshX_inv [] (by simp),
   holding_inv _ farX_inv [] (by simp)⟩

theorem witness_DecodeUndoesEncode : (Instr.seekEnd (-2 ^ 63)).wellFormed part = true ∧
    (Instr.init K1 Z (2 ^ 64 - 1) (2 ^ 64 - 1)).wellFormed part = true := by decide
theorem witness_EncodeUndoesDecode : decode part [0x02, 0x23] = .ok (.release, [0x23]) := by decide
theorem witness_ReservedOpcodesAreTheOthers : Cmd.ofOp 0x23 = none ∧ Cmd.ofOp 0x00 = none ∧ Cmd.ofOp 0xff = none := by decide
/-- Also with a reset input behind that lands after the response. -/
theorem witness_ReservedOpcodeFaults : Cmd.ofOp 0x23 = none ∧
    (given (holding goodX) [.byte 0x23, .reset 1]).pending = none ∧
    (given (holding goodX) [.byte 0x23, .reset 1]).input = .byte 0x23 :: [.reset 1] ∧
    ∀ r, ([.reset 1] : List PortInput) ≠ .reset 0 :: r := ⟨by decide, rfl, rfl, by simp⟩
theorem witness_FrameLengthIsTheOpcodes : State.reset.pending = none ∧
    ([0, 0, 0, 0, 0, 0, 0] : List Byte).length + 1 < framelen part 0x12 ∧ ([] : List Byte).length + 1 < framelen part 0x01 ∧
    (given State.reset ([(0x12 : Byte)].map .byte ++ [.reset 0])).input = [(0x12 : Byte)].map .byte ++ .reset 0 :: [] :=
  ⟨rfl, by decide, by decide, rfl⟩
/-- With a reset input behind that lands after the last event, and with a silent engine that is asked nothing. -/
theorem witness_StepRunsDecodedCommand :
    (given (holding goodX) [.byte 0x10, .reset 1]).pending = none ∧ decode part [0x10] = .ok (.getlen, []) ∧
    (∃ t, exec .getlen (given (holding goodX) [.reset 1]) = .next t ∧
      undisturbed (given (holding goodX) [.byte 0x10, .reset 1]) t [.reset 1]) ∧
    ∃ t, exec .getlen (given (holding goodX) [.cipherSilent 0]) = .next t ∧
      undisturbed (given (holding goodX) [.byte 0x10, .cipherSilent 0]) t [.cipherSilent 0] :=
  ⟨rfl, by decide, ⟨_, rfl, ⟨by rintro k r ⟨⟩; decide, by rintro k r ⟨⟩⟩⟩,
    ⟨_, rfl, ⟨by rintro k r ⟨⟩, by rintro k r ⟨⟩ _ _ _ ⟨⟩⟩⟩⟩
theorem witness_PseudoCommandsExpand : 2 ^ 63 - 1 ≤ part.posMax ∧ (holding goodX).inst = some goodX ∧
    2 ^ (part.posw - 1) ≤ 2 ^ 63 ∧ 2 ^ 63 < 2 ^ part.posw ∧ 2 ^ (part.posw - 1) ≤ 2 ^ 64 - 1 ∧
    2 ^ 64 - 1 < 2 ^ part.posw := ⟨by decide, rfl, by decide, by decide, by decide, by decide⟩
theorem witness_ResponseFrameCarriesStatusAndValue : 2 ^ 64 - 1 < 2 ^ part.posw ∧ 2 ^ 16 - 1 < 2 ^ narrow.posw := by decide
theorem witness_BytesAreLittleEndian : 2 ^ 128 - 1 < 2 ^ 128 ∧ 0 < 2 ^ 128 := by decide
theorem witness_IncCarriesOverLeadingOnes :
    ((∀ i : Fin 16, i < (0 : Fin 16) → (pad [0xfe])[i] = 0xFF) ∧ (pad [0xfe])[(0 : Fin 16)] ≠ 0xFF) ∧
    ((∀ i : Fin 16, i < (15 : Fin 16) → (pad (List.replicate 15 0xff))[i] = 0xFF) ∧
      (pad (List.replicate 15 0xff))[(15 : Fin 16)] ≠ 0xFF) ∧
    ∀ i : Fin 16, (rep 0xff)[i] = 0xFF := by decide
theorem witness_ResetLaws : 2 ^ 128 - 1 < 2 ^ 128 ∧ counterReset K1 (2 ^ 128 - 1) = counterReset K1 (2 ^ 128 - 1) := ⟨by decide, rfl⟩
theorem witness_SetPositionResynchronises : (0 : Int) ≤ 0 ∧ (0 : Int) ≤ part.posMax ∧ (2 ^ 63 - 1 : Int) ≤ part.posMax ∧
    (-1 : Int) < 0 ∧ (part.posMax : Int) < 2 ^ 63 := by decide
theorem witness_InitConstructsInstance : State.reset.inst = none ∧ 16 ≤ 16 ∧ 2 ^ 63 - 1 ≤ part.posMax ∧
    (holding goodX).inst = some goodX ∧ (16 < 17 ∨ part.posMax < 16) ∧ (2 ^ 63 < 0 ∨ part.posMax < 2 ^ 63) :=
  ⟨rfl, by decide, by decide, rfl, by decide, by decide⟩
/-- Witness of every statement that asks for an instance, or for none: `RELEASE`, `GETPOS`, `ReleaseForgetsLikeReset`,
`CommandsNeedAnInstance`, `ConfigurationIsImmutable`. -/
theorem witness_instance_or_none : (holding laggingX).inst = some laggingX ∧ State.reset.inst = none ∧
    (Instr.seekCur 0).cmd ∈ [Cmd.release, .getlen, .getpos, .setpos, .seekBegin, .seekCur, .seekEnd, .read] :=
  ⟨rfl, rfl, by decide⟩
theorem witness_GetlenRespondsLength : (holding goodX).inst = some goodX ∧ goodX.hdr ≤ goodX.srclen ∧
    goodX.srclen ≤ (holding goodX).width.posMax ∧ State.reset.inst = none := ⟨rfl, by decide, by decide, rfl⟩
theorem witness_SetposMovesCursor : (holding goodX).inst = some goodX ∧ 0 ≤ part.posMax ∧ 2 ^ 63 - 1 ≤ part.posMax ∧
    part.posMax < 2 ^ 63 ∧ State.reset.inst = none := ⟨rfl, by decide, by decide, by decide, rfl⟩
theorem witness_SeekBeginMovesCursor : (holding goodX).inst = some goodX ∧ (0 : Int) ≤ 2 ^ 63 - 1 ∧
    (2 ^ 63 - 1 : Int) ≤ part.posMax ∧ ((-1 : Int) < 0 ∨ (part.posMax : Int) < -1) ∧ State.reset.inst = none :=
  ⟨rfl, by decide, by decide, by decide, rfl⟩
theorem witness_SeekCurMovesCursor : (holding goodX).inst = some goodX ∧ (0 : Int) ≤ (goodX.pos : Int) + (-17) ∧
    (goodX.pos : Int) + (-17) ≤ part.posMax ∧ (goodX.pos : Int) + (2 ^ 63 - 18) ≤ part.posMax ∧
    (goodX.pos : Int) + (-18) < 0 ∧ (part.posMax : Int) < goodX.pos + (2 ^ 63 - 17) :=
  ⟨rfl, by decide, by decide, by decide, by decide, by decide⟩
theorem witness_SeekEndMovesCursor : (holding goodX).inst = some goodX ∧ goodX.hdr ≤ goodX.srclen ∧
    (0 : Int) ≤ (goodX.srclen : Int) - goodX.hdr + (-40) ∧
    (goodX.srclen : Int) - goodX.hdr + (-40) ≤ part.posMax ∧
    (goodX.srclen : Int) - goodX.hdr + (-41) < 0 ∧
    (part.posMax : Int) < goodX.srclen - goodX.hdr + (2 ^ 63 - 40) :=
  ⟨rfl, by decide, by decide, by decide, by decide, by decide⟩
theorem witness_ClampStaysWithinLength : goodX.hdr ≤ goodX.srclen ∧
    goodX.pos < goodX.srclen - goodX.hdr ∧ farX.srclen - farX.hdr ≤ farX.pos := by decide
theorem witness_EmptyReadChangesNothing : (holding farX).inst = some farX ∧
    (0 = 0 ∨ goodX.srclen - goodX.hdr ≤ goodX.pos) ∧
    (1 = 0 ∨ farX.srclen - farX.hdr ≤ farX.pos) := ⟨rfl, by decide, by decide⟩
theorem witness_ByteMixSteps : laggingX.pos % 16 = 0 ∧ 0 < laggingX.pos ∧ laggingX.fresh = false ∧
    ¬ (freshX.pos % 16 = 0 ∧ 0 < freshX.pos ∧ freshX.fresh = false) := by decide
/-- Witness of the statements about a `READ` that asks the source: the ideal source, a short answer, an empty one, an error. -/
theorem witness_read : (holding laggingX).Inv ∧ (holding laggingX).inst = some laggingX ∧ clamp laggingX 2 ≠ 0 ∧
    (srcRead part (laggingX.pos + laggingX.hdr) (clamp laggingX 2) (holding laggingX).source).1 =
      some (.ok [0x1b, 0x22]) :=
  ⟨holding_inv _ laggingX_inv [] (by simp), rfl, by decide, by decide⟩
theorem witness_read_short : (scripted goodX [.answer (.ok [0xab])]).Inv ∧ (scripted goodX [.answer (.ok [])]).Inv ∧
    (srcRead part 25 (clamp goodX 2) (scripted goodX [.answer (.ok [0xab])]).source).1 = some (.ok [0xab]) ∧
    (srcRead part 25 (clamp goodX 2) (scripted goodX [.answer (.ok [])]).source).1 = some (.ok []) :=
  ⟨scripted_inv _ goodX_inv _, scripted_inv _ goodX_inv _, by decide, by decide⟩
theorem witness_read_error : (scripted goodX [.answer (.err 13)]).inst = some goodX ∧ clamp goodX 1 ≠ 0 ∧
    (srcRead part (goodX.pos + goodX.hdr) (clamp goodX 1) (scripted goodX [.answer (.err 13)]).source).1 =
      some (.err 13) ∧
    (scripted goodX [.answer (.err 13)]).source.script = .answer (.err 13) :: [] ∧ 13 < 2 ^ part.posw :=
  ⟨rfl, by decide, by decide, rfl, by decide⟩
theorem witness_read_empty : State.reset.inst = none ∧ (holding farX).inst = some farX ∧ clamp farX 1 = 0 := ⟨rfl, rfl, by decide⟩
theorem witness_passes : (memory 7 3 48).length ≤ part.posMax ∧ 8 + 33 < (memory 7 3 48).length ∧
    (memory 1 0 8).length + (memory 7 3 40).length ≤ part.posMax ∧ [0, 17, 31].sum = (memory 7 3 48).length ∧
    2 ^ 63 - 1 ≤ part.posMax := by decide
theorem witness_SourceAnswersWithinContract : ([1, 2] : List Byte).length ≤ 2 ∧ 0 < 1 ∧ 1 < 2 ^ part.posw ∧
    0 < 2 ^ 64 - 1 ∧ 2 ^ 64 - 1 < 2 ^ part.posw ∧ (srcRead part 0 2 (Source.ofBytes [1, 2, 3])).1 = some (.ok [1, 2]) := by decide
theorem witness_PortValuesFitTheWord : (scripted goodX [.silent]).Inv ∧ (scripted goodX [.silent]).pending = none ∧
    ∃ t, exec (.read 1) (scripted goodX [.silent]) = .next t ∧ t.pending = some (.source 25 1) :=
  ⟨scripted_inv _ goodX_inv _, rfl, _, rfl, rfl⟩
theorem witness_SilentSourceBlocks : (scripted goodX [.silent]).inst = some goodX ∧ clamp goodX 1 ≠ 0 ∧
    (scripted goodX [.silent]).source.script = .silent :: [] ∧ (given stuck [.byte 0x11]).pending ≠ none ∧
    (given stuck [.byte 0x11]).input = [(0x11 : Byte)].map .byte ∧
    (given stuck [.byte 0x11, .reset 0]).input = [(0x11 : Byte)].map .byte ++ .reset 0 :: [] :=
  ⟨rfl, by decide, rfl, by simp [given, stuck], rfl, rfl⟩
theorem witness_SilentCipherBlocks : (holding goodX).pending = none ∧
    decode part (encode part (.setpos 0)) = .ok (.setpos 0, []) ∧
    (given (holding goodX) ((encode part (.setpos 0)).map .byte ++ [.cipherSilent 0])).input =
      (encode part (.setpos 0)).map .byte ++ .cipherSilent 0 :: [] ∧
    ∃ t, exec (.setpos 0) (given (holding goodX) [.cipherSilent 0]) = .next t ∧ (newEvents (holding goodX) t)[0]? =
      some (.enc K1 (positioned Config.E goodX 0).ctr (positioned Config.E goodX 0).ks) :=
  ⟨rfl, by decide, rfl, _, rfl, rfl⟩
theorem witness_BlockNeverWritesSource : (Instr.setpos 3).cmd ≠ .read := by decide
theorem witness_SourceRequestsStayInside : (holding goodX).Inv ∧ (holding goodX).inst = some goodX ∧
    ∃ t, exec (.read 1) (holding goodX) = .next t ∧ Event.src 25 1 (.ok [0xb2]) ∈ newEvents (holding goodX) t :=
  ⟨holding_inv _ goodX_inv [] (by simp), rfl, _, rfl, List.mem_cons_self⟩
theorem witness_ReadSeesSourceAsItIsNow : (given (holding goodX) [.source Source.empty]).input = .source Source.empty :: [] ∧
    (holding goodX).Inv ∧ clamp goodX 1 ≠ 0 ∧ (holding goodX).source = Source.ofBytes (memory 7 3 48) :=
  ⟨rfl, holding_inv _ goodX_inv [] (by simp), by decide, rfl⟩
theorem witness_CacheHoldsTheBlockOfThePosition : (holding goodX).inst = some goodX ∧ lag goodX = 0 ∧ lag freshX = 0 ∧
    lag laggingX = 1 := ⟨rfl, by decide, by decide, by decide⟩
theorem witness_CipherSeesCountersOnly : (holding goodX).Inv ∧ ∃ t, exec (.setpos 0) (holding goodX) = .next t ∧
    Event.enc K1 (positioned Config.E goodX 0).ctr (positioned Config.E goodX 0).ks ∈ newEvents (holding goodX) t :=
  ⟨holding_inv _ goodX_inv [] (by simp), _, rfl, List.mem_cons_self⟩
theorem witness_CipherSeesCountersOnly_read : (holding laggingX).Inv ∧ ∃ t, exec (.read 1) (holding laggingX) = .next t ∧
    Event.enc K1 (ctrInc laggingX).ctr (Config.E K1 (ctrInc laggingX).ctr) ∈ newEvents (holding laggingX) t :=
  ⟨holding_inv _ laggingX_inv [] (by simp), _, rfl, .tail _ List.mem_cons_self⟩
theorem witness_LagAndBlockIndexReplaceFresh : laggingX.Inv Config.E part ∧ freshX.Inv Config.E part ∧
    laggingX.pos < part.posMax ∧ 2 ^ 63 - 1 ≤ part.posMax :=
  ⟨laggingX_inv, freshX_inv, by decide, by decide⟩
/-- Two good instances at position 16 that differ in `FRESH`, `CTR` and `KS` only. -/
theorem witness_HiddenStateNeverShowsInOutput :
    let y : Instance := { freshX with fresh := false, ctr := pad [0xfe, 0xff], ks := Config.E K1 (pad [0xfe, 0xff]) }
    (holding freshX).Inv ∧ (holding y).Inv ∧ (holding freshX).Alike (holding y) ∧ y.fresh ≠ freshX.fresh ∧ y.ctr ≠ freshX.ctr :=
  ⟨holding_inv _ freshX_inv [] (by simp),
   holding_inv _ ⟨by decide, by decide, by decide, by decide, rfl, by decide⟩ [] (by simp),
   ⟨rfl, rfl, rfl, rfl⟩, by decide, by decide⟩
theorem witness_FaultsArePrecise : exec (.write 1) State.reset = .next (faulted .capabilityViolation 0 State.reset) ∧
    (faulted .capabilityViolation 0 State.reset).events = State.reset.events ++ [] ++ [.rsp .capabilityViolation 0] ∧
    Status.capabilityViolation ≠ .ok ∧
    ∃ t, exec (.read 1) (scripted goodX [.answer (.err 13)]) = .next t ∧
      t.events = (scripted goodX [.answer (.err 13)]).events ++ [.src 25 1 (.err 13)] ++
        [.rsp .sourceFault 13] := ⟨rfl, rfl, by decide, _, rfl, rfl⟩
theorem witness_FaultPriority : (Instr.write 0).cmd ∈ [Cmd.write, .setlen, .flush] ∧
    (Instr.setpos 0).cmd ∉ [Cmd.write, .setlen, .flush] ∧ (Instr.init Z Z 0 0).cmd = .init ∧ (holding goodX).cfg = true ∧
    (Instr.setpos (2 ^ 63)).cmd ≠ .init ∧ State.reset.cfg = false ∧ (8 < 9 ∨ part.posMax < 8) ∧ part.posMax < 2 ^ 63 ∧
    (seekTarget goodX .fromCurrent (-18) < 0 ∨ (part.posMax : Int) < seekTarget goodX .fromCurrent (-18)) := by decide
theorem witness_OnlySeeksAndReadsMoveTheCursor : (holding laggingX).inst = some laggingX ∧
    Instr.flush.cmd ∉ [Cmd.release, .setpos, .seekBegin, .seekCur, .seekEnd, .read] := ⟨rfl, by decide⟩
theorem witness_HardwareResetAtAnyPoint : (given stuck [.reset 3]).input = .reset 3 :: [] ∧
    (holding goodX).pending = none ∧ ([] : List Byte).length + 1 < framelen part 0x12 ∧
    decode part (encode part (.setpos 0)) = .ok (.setpos 0, []) ∧
    (given (holding goodX) ((encode part (.setpos 0)).map .byte ++ [.reset 1])).input =
      (encode part (.setpos 0)).map .byte ++ .reset 1 :: [] ∧
    (∃ t, exec (.setpos 0) (given (holding goodX) [.reset 1]) = .next t ∧ 1 < (newEvents (holding goodX) t).length) ∧
    Cmd.ofOp 0x23 = none ∧ (given (holding goodX) [.byte 0x23, .reset 0]).input = .byte 0x23 :: .reset 0 :: [] :=
  ⟨rfl, rfl, by decide, by decide, rfl, ⟨_, rfl, by decide⟩, by decide, rfl⟩
theorem witness_StepKeepsInvariant : (given (holding laggingX) [.byte 0x42]).Inv ∧
    step (given (holding laggingX) [.byte 0x42]) = .next (faulted .capabilityViolation 0 (given (holding laggingX) [])) :=
  ⟨holding_inv _ laggingX_inv _ (by simp), rfl⟩
theorem witness_CounterFollowsPositionWithLag : laggingX.Inv Config.E part ∧
    laggingX.pos + ([1, 2] : List Byte).length ≤ part.posMax := ⟨laggingX_inv, by decide⟩
theorem witness_MemoryReadsWhatWasWritten : Memory.wf [(3, 1), (9, 2)] ∧ (4 : Nat) ≠ 3 := by decide

end Sys2Proof.Tests
end

/-! What the proofs of the scope statements add to the laws: the little-endian sum and the bus word (R10, R54). -/

namespace Sys2Proof.Machine

/-- A list of bytes given by index has the value `sum of B[i] * 256^i` (R10). -/
theorem leVal_ofFn {n : Nat} (f : Fin n → Byte) :
    leVal (List.ofFn f) = ∑ i : Fin n, (f i).toNat * 256 ^ i.val := by
  induction n with
  | zero => simp [leVal]
  | succ n ih =>
    have htail : ∑ i : Fin n, (f i.succ).toNat * 256 ^ i.succ.val = 256 * ∑ i : Fin n, (f i.succ).toNat * 256 ^ i.val := by
      rw [Finset.mul_sum]
      exact Finset.sum_congr rfl fun i _ => by rw [Fin.val_succ, pow_succ]; ring
    rw [List.ofFn_succ, leVal, ih, Fin.sum_univ_succ, htail, Fin.val_zero, pow_zero, mul_one]

/-- `val` is the little-endian sum (R10). -/
theorem val_eq_sum (B : Bytes16) : val B = ∑ i : Fin 16, (B[i]).toNat * 256 ^ i.val := by
  have hB : B.toList = List.ofFn fun i : Fin 16 => B[i] :=
    List.ext_getElem (by simp) fun i _ _ => by rw [List.getElem_ofFn]; rfl
  rw [val, hB, leVal_ofFn]

/-- Byte `i` of a `Bytes16` is digit `i` of its value in base 256 (R10). -/
theorem val_div_pow_mod (B : Bytes16) (i : Fin 16) : val B / 256 ^ i.val % 256 = (B[i]).toNat := by
  rw [val, leVal_getElem _ _ (by simp)]
  simp

/-- The bus word loses nothing of the value (R10, R82). -/
theorem busWord_toNat (B : Bytes16) : (busWord B).toNat = val B := by
  rw [busWord, BitVec.toNat_ofNat, Nat.mod_eq_of_lt (val_lt B)]

/-- Byte `i` stands at bits `[8i+7 : 8i]` of the bus word (R10). -/
theorem busWord_extract (B : Bytes16) (i : Fin 16) : (busWord B).extractLsb' (8 * i.val) 8 = B[i] := by
  have hshift : val B >>> (8 * i.val) = val B / 256 ^ i.val := by
    rw [Nat.shiftRight_eq_div_pow, pow_mul]
    norm_num
  apply BitVec.eq_of_toNat_eq
  rw [BitVec.extractLsb'_toNat, busWord_toNat, hshift]
  exact val_div_pow_mod B i

/-- Settles O11: `val` and `bytes16` are inverse by the laws of bytes, and the sum and the bus word read the value digit by digit
in base 256. -/
theorem bytesAreLittleEndian : Obligations.BytesAreLittleEndian :=
  ⟨bytes16_val, fun v hv => by rw [val_bytes16, Nat.mod_eq_of_lt hv], val_eq_sum, busWord_extract⟩

/-! Responses among the events (R13, R80): the mixer gives none, and a source request goes unanswered only by the script. -/

open Config (Cipher)

theorem rspCount_append (l m : List Event) : rspCount (l ++ m) = rspCount l + rspCount m := by
  induction l with
  | nil => simp [rspCount]
  | cons e es ih =>
    cases e with
    | rsp st v => simp only [List.cons_append, rspCount, ih]; omega
    | out b => exact ih
    | src addr n a => exact ih
    | enc key block ks => exact ih

theorem rspCount_crossBlock (E : Cipher) (x : Instance) : rspCount (crossBlock E x).2 = 0 := by
  rw [crossBlock]
  split <;> rfl

theorem rspCount_byteMix (E : Cipher) (x : Instance) (b : Byte) : rspCount (byteMix E x b).2 = 0 := by
  rw [byteMix_events, rspCount_append, rspCount_crossBlock]
  rfl

/-- The walk of a `READ` gives no response (R135), whatever state it starts from. -/
theorem rspCount_mixAll (E : Cipher) (x : Instance) (data : List Byte) : rspCount (mixAll E x data).2 = 0 := by
  induction data generalizing x with
  | nil => rfl
  | cons b bs ih => rw [mixAll, rspCount_append, rspCount_byteMix, ih]

/-- A source request is never answered only where the script says so (R191, log 6). -/
theorem script_silent_of_srcRead_none {w : Config.Width} {addr n : Nat} {src : Source}
    (h : (srcRead w addr n src).1 = none) : src.script.head? = some .silent := by
  unfold srcRead at h
  split at h
  · cases h
  · rename_i hs; rw [hs]; rfl
  · cases h

/-! How a command ends (R80, R172, R191). -/

/-- A command from `s` to `t` that ends in its one response, after events that hold none. -/
def EndsInOneResponse (s t : State) : Prop :=
  ∃ fs st v, t.events = s.events ++ (fs ++ [.rsp st v]) ∧ rspCount fs = 0 ∧ t.pending = s.pending ∧ t.input = s.input

/-- A command from `s` to `t` that waits on a source request, with no event and no element written (log 6). -/
def WaitsOnSource (i : Instr) (s t : State) : Prop :=
  t.events = s.events ∧ t.pending ≠ none ∧ i.cmd = .read ∧ s.source.script.head? = some .silent ∧ t.inst = s.inst ∧
    t.input = s.input

theorem OnlyResponds.endsInOneResponse {s t : State} (h : OnlyResponds s t) : EndsInOneResponse s t := by
  obtain ⟨st, v, -, rfl⟩ := h
  exact ⟨[], st, v, rfl, rfl, rfl, rfl⟩

theorem Loads.endsInOneResponse {i : Instr} {s t : State} (h : Loads i s t) : EndsInOneResponse s t := by
  obtain ⟨_, _, _, _, -, -, -, -, y, -, rfl⟩ := h
  exact ⟨[.enc y.key y.ctr y.ks], .ok, 0, rfl, rfl, rfl, rfl⟩

theorem Releases.endsInOneResponse {i : Instr} {s t : State} (h : Releases i s t) : EndsInOneResponse s t := by
  obtain ⟨_, -, -, rfl⟩ := h
  exact ⟨[], .ok, 0, rfl, rfl, rfl, rfl⟩

theorem Repositions.endsInOneResponse {i : Instr} {s t : State} (h : Repositions i s t) : EndsInOneResponse s t := by
  obtain ⟨x, n, -, -, -, rfl⟩ := h
  exact ⟨[.enc x.key (positioned Config.E x n).ctr (positioned Config.E x n).ks], .ok, n, rfl, rfl, rfl, rfl⟩

/-- A `READ` that makes its request ends by what the source does: no answer, an error, or data (R135, R168, R191). -/
theorem Reads.ends {i : Instr} {s t : State} (h : Reads i s t) : EndsInOneResponse s t ∨ WaitsOnSource i s t := by
  obtain ⟨x, count, rfl, -, -, rfl⟩ := h
  cases hr : (srcRead s.width (x.pos + x.hdr) (clamp x count) s.source).1 with
  | none => exact .inr ⟨rfl, Option.some_ne_none _, rfl, script_silent_of_srcRead_none hr, rfl, rfl⟩
  | some a =>
    cases a with
    | err code =>
      exact .inl ⟨[.src (physAddr x x.pos) (clamp x count) (.err code)], .sourceFault, code,
        List.append_assoc _ _ _, rfl, rfl, rfl⟩
    | ok data =>
      exact .inl ⟨.src (physAddr x x.pos) (clamp x count) (.ok data) :: (mixAll Config.E x data).2, .ok, data.length,
        List.append_assoc _ _ _, rspCount_mixAll Config.E x data, rfl, rfl⟩

/-- Every command answers a next state, and ends in its one response or waits on the source. -/
theorem exec_ends (i : Instr) (s : State) :
    ∃ t, exec i s = .next t ∧ (EndsInOneResponse s t ∨ WaitsOnSource i s t) := by
  obtain ⟨t, ht, h | h | h | h | h⟩ := exec_cases i s
  · exact ⟨t, ht, .inl h.endsInOneResponse⟩
  · exact ⟨t, ht, .inl h.endsInOneResponse⟩
  · exact ⟨t, ht, .inl h.endsInOneResponse⟩
  · exact ⟨t, ht, .inl h.endsInOneResponse⟩
  · exact ⟨t, ht, h.ends⟩

/-- Settles O51, by the cases of `exec`: each kind of command but a `READ` responds, and a `READ` does unless its source request
is never answered. -/
theorem everyCommandEndsInOneResponse : Obligations.EveryCommandEndsInOneResponse := by
  intro i s
  obtain ⟨t, ht, ⟨fs, st, v, hev, hfs, hpend, hin⟩ | ⟨hev, hpend, hcmd, hsilent, hinst, hin⟩⟩ := exec_ends i s
  · exact ⟨t, fs ++ [.rsp st v], ht, hev, hin, .inl ⟨fs, st, v, rfl, hfs, hpend⟩⟩
  · exact ⟨t, [], ht, by rw [hev, List.append_nil], hin, .inr ⟨rfl, hpend, hcmd, hsilent, hinst⟩⟩

end Sys2Proof.Machine

/-! What the proofs of the statements about the state add to the laws: what a command can do to the state it starts from, what it
puts on the ports, and which instances the invariant leaves (10_state.md). -/

namespace Sys2Proof.Machine

open Config (Cipher)

/-! Ranges of a `READ` (R131, R133). -/

/-- What a `READ` asks for ends at or before `SRCLEN` (R33, R57). -/
theorem physAddr_add_clamp_le {x : Instance} {count : Nat} (hh : x.hdr ≤ x.srclen) (hc : clamp x count ≠ 0) :
    physAddr x x.pos + clamp x count ≤ x.srclen := by
  have h := (clamp_le x count).2 hc
  unfold len at h
  unfold physAddr
  omega

/-- The bytes a `READ` obtains leave `POS` legal (R33). -/
theorem pos_add_length_le_posMax {E : Cipher} {w : Config.Width} {x : Instance} (h : x.Inv E w) {count : Nat}
    (hc : clamp x count ≠ 0) {data : List Byte} (hd : data.length ≤ clamp x count) : x.pos + data.length ≤ w.posMax := by
  have ha := physAddr_add_clamp_le h.hdr_le hc
  have hs := h.srclen_le
  unfold physAddr at ha
  omega

/-! The cases of `exec` for a given next state. -/

/-- Everything a command that led from `s` to `t` can be. -/
theorem exec_next_cases {i : Instr} {s t : State} (h : exec i s = .next t) :
    OnlyResponds s t ∨ Loads i s t ∨ Releases i s t ∨ Repositions i s t ∨ Reads i s t := by
  obtain ⟨u, hu, hcases⟩ := exec_cases i s
  cases hu.symm.trans h
  exact hcases

/-- Everything a `READ` that makes its request can be: it waits, it fails with the source's error, or it mixes what it got
(R135, R168, R191). -/
theorem Reads.cases {i : Instr} {s t : State} (h : Reads i s t) :
    ∃ x count src, i = .read count ∧ s.inst = some x ∧ clamp x count ≠ 0 ∧ src.mem = s.source.mem ∧
      (t = { s with source := src, pending := some (.source (physAddr x x.pos) (clamp x count)) } ∨
      (∃ code, t = { s with
          source := src
          events := s.events ++ [.src (physAddr x x.pos) (clamp x count) (.err code), .rsp .sourceFault code] }) ∨
      ∃ data, data.length ≤ clamp x count ∧ t = { s with
          inst := some (mixAll Config.E x data).1
          source := src
          events := s.events ++ (.src (physAddr x x.pos) (clamp x count) (.ok data) :: (mixAll Config.E x data).2 ++
            [.rsp .ok data.length]) }) := by
  obtain ⟨x, count, hi, hx, hc, rfl⟩ := h
  obtain ⟨hmem, -, hr | ⟨code, hr, -⟩ | ⟨data, hr, hd⟩⟩ := srcRead_cases s.width (x.pos + x.hdr) (clamp x count) s.source
  · exact ⟨x, count, _, hi, hx, hc, hmem, .inl (by rw [hr]; rfl)⟩
  · refine ⟨x, count, _, hi, hx, hc, hmem, .inr (.inl ⟨code, ?_⟩)⟩
    rw [hr]
    simp [readAnswered, takeFault, respond, emit]
  · refine ⟨x, count, _, hi, hx, hc, hmem, .inr (.inr ⟨data, hd, ?_⟩)⟩
    rw [hr]
    simp [readAnswered, respond, emit]

/-- No command changes the width of the part (R8). -/
theorem exec_width {i : Instr} {s t : State} (h : exec i s = .next t) : t.width = s.width := by
  obtain h | h | h | h | h := exec_next_cases h
  · obtain ⟨_, _, -, rfl⟩ := h; rfl
  · obtain ⟨_, _, _, _, -, -, -, -, _, -, rfl⟩ := h; rfl
  · obtain ⟨_, -, -, rfl⟩ := h; rfl
  · obtain ⟨_, _, -, -, -, rfl⟩ := h; rfl
  · obtain ⟨_, _, _, -, -, -, -, rfl | ⟨_, rfl⟩ | ⟨_, -, rfl⟩⟩ := h.cases <;> rfl

/-! Every kind of command keeps the invariant (R31, R32, R33). -/

theorem OnlyResponds.keeps_inv {s t : State} (h : OnlyResponds s t) (hs : s.Inv) : t.Inv := by
  obtain ⟨_, _, -, rfl⟩ := h
  exact ⟨hs.inst, hs.pending, hs.memory, hs.inputs⟩

/-- What `INIT` loads is a position set to 0 on a legal configuration (R111). -/
theorem Loads.keeps_inv {i : Instr} {s t : State} (h : Loads i s t) (hs : s.Inv) : t.Inv := by
  obtain ⟨key, iv, hdr, srclen, -, -, hh, hl, y, rfl, rfl⟩ := h
  have hy : (loadInstance Config.E key iv hdr srclen).1.Inv Config.E s.width := by
    rw [loadInstance, placeAt_eq]
    exact positioned_inv hh hl (Nat.zero_le _)
  exact ⟨fun _ hz => by cases hz; exact hy, fun _ _ _ => Option.some_ne_none _, hs.memory, hs.inputs⟩

/-- A block that accepts a frame waits on nothing, so `RELEASE` leaves no source request without an `Instance`. -/
theorem Releases.keeps_inv {i : Instr} {s t : State} (h : Releases i s t) (hs : s.Inv) (hp : s.pending = none) : t.Inv := by
  obtain ⟨_, -, -, rfl⟩ := h
  exact ⟨fun _ hz => (nomatch hz), fun _ _ hq => (nomatch hp.symm.trans hq), hs.memory, hs.inputs⟩

theorem Repositions.keeps_inv {i : Instr} {s t : State} (h : Repositions i s t) (hs : s.Inv) : t.Inv := by
  obtain ⟨x, n, -, hx, hn, rfl⟩ := h
  have hy := positioned_inv (E := Config.E) (hs.inst x hx).hdr_le (hs.inst x hx).srclen_le hn
  exact ⟨fun _ hz => by cases hz; exact hy, fun _ _ _ => Option.some_ne_none _, hs.memory, hs.inputs⟩

theorem Reads.keeps_inv {i : Instr} {s t : State} (h : Reads i s t) (hs : s.Inv) : t.Inv := by
  obtain ⟨x, count, src, -, hx, hc, hmem, rfl | ⟨code, rfl⟩ | ⟨data, hd, rfl⟩⟩ := h.cases
  · exact ⟨hs.inst, fun _ _ _ => hx ▸ Option.some_ne_none x, hmem ▸ hs.memory, hs.inputs⟩
  · exact ⟨hs.inst, hs.pending, hmem ▸ hs.memory, hs.inputs⟩
  · have hy := (mixAll_spec data (hs.inst x hx) (pos_add_length_le_posMax (hs.inst x hx) hc hd)).1
    exact ⟨fun _ hz => by cases hz; exact hy, fun _ _ _ => Option.some_ne_none _, hmem ▸ hs.memory, hs.inputs⟩

/-- Every command of a block that accepts a frame keeps the invariant. -/
theorem exec_keeps_inv {i : Instr} {s t : State} (h : exec i s = .next t) (hs : s.Inv) (hp : s.pending = none) : t.Inv := by
  obtain h | h | h | h | h := exec_next_cases h
  · exact h.keeps_inv hs
  · exact h.keeps_inv hs
  · exact h.keeps_inv hs hp
  · exact h.keeps_inv hs
  · exact h.keeps_inv hs

/-- A complete frame is a reserved opcode, which only responds, or runs its command (R154, R170). -/
theorem runFrame_next_cases {bs : List Byte} {s t : State} (h : runFrame bs s = .next t) :
    OnlyResponds s t ∨ ∃ i, exec i s = .next t := by
  unfold runFrame at h
  split at h
  · exact .inr ⟨_, h⟩
  · cases h
    exact .inl (takeFault_onlyResponds (by decide) 0)
  · cases h

theorem runFrame_keeps_inv {bs : List Byte} {s t : State} (h : runFrame bs s = .next t) (hs : s.Inv)
    (hp : s.pending = none) : t.Inv ∧ t.width = s.width := by
  obtain h | ⟨i, h⟩ := runFrame_next_cases h
  · refine ⟨h.keeps_inv hs, ?_⟩
    obtain ⟨_, _, -, rfl⟩ := h
    rfl
  · exact ⟨exec_keeps_inv h hs hp, exec_width h⟩

/-! What happens from outside keeps the invariant (R59, R180, R191). -/

/-- Inputs taken, or gone without effect. -/
theorem State.Inv.with_input {s : State} (hs : s.Inv) {rest : List PortInput}
    (h : ∀ src, .source src ∈ rest → .source src ∈ s.input) : State.Inv { s with input := rest } :=
  ⟨hs.inst, hs.pending, hs.memory, fun src hm => hs.inputs src (h src hm)⟩

/-- A change of the source that stood in the input. -/
theorem State.Inv.with_source {s : State} (hs : s.Inv) {src : Source} (h : src.mem.wf) : State.Inv { s with source := src } :=
  ⟨hs.inst, hs.pending, h, hs.inputs⟩

theorem hardwareReset_keeps_inv {s : State} (hs : s.Inv) : (hardwareReset s).Inv :=
  ⟨fun _ hz => (nomatch hz), fun _ _ hq => (nomatch hq), hs.memory, hs.inputs⟩

/-- A source that has or has not seen the request of an unfinished command keeps its canonical form. -/
theorem ite_source_wf {s t : State} (hs : s.Inv) (ht : t.Inv) (k : Nat) :
    (if k = 0 then s.source else t.source).mem.wf := by
  split
  · exact hs.memory
  · exact ht.memory

/-- Reset inside a command (R180): no `Instance`, and a source that may have seen the command's request. -/
theorem cutShort_inv {s t : State} (hs : s.Inv) (ht : t.Inv) {k : Nat} {rest : List PortInput}
    (h : ∀ src, .source src ∈ rest → .source src ∈ s.input) : (cutShort s t k rest).Inv :=
  ⟨fun _ hz => (nomatch hz), fun _ _ hq => (nomatch hq), ite_source_wf hs ht k, fun src hm => hs.inputs src (h src hm)⟩

/-- A silent cipher engine (R191): no element written, and the wait is on the cipher port. -/
theorem stalled_inv {s t : State} (hs : s.Inv) (ht : t.Inv) {k : Nat} {key block : Bytes16} {rest : List PortInput}
    (h : ∀ src, .source src ∈ rest → .source src ∈ s.input) : (stalled s t k (.cipher key block) rest).Inv :=
  ⟨hs.inst, fun _ _ hq => (nomatch hq), ite_source_wf hs ht k, fun src hm => hs.inputs src (h src hm)⟩

/-- Settles O57, by the cases of `step`: a command keeps the invariant by the cases of `exec`, what comes from outside by the
lemmas above. -/
theorem stepKeepsInvariant : Obligations.StepKeepsInvariant := by
  intro s t hs hstep
  obtain ⟨k, rest, -, hin, rfl⟩ | ⟨src, rest, -, hin, rfl⟩ | ⟨rest, -, hf, rfl⟩ | ⟨src, rest, -, hf, rfl⟩ |
    ⟨bytes, rest, u, hp, hf, hrun, hend⟩ := step_cases hstep
  · have hsub : ∀ src, .source src ∈ rest → .source src ∈ s.input := fun src hm =>
      afterOffered_inputs s.input src (hin ▸ .tail _ hm)
    exact ⟨hardwareReset_keeps_inv (hs.with_input hsub), rfl⟩
  · have hsub : ∀ src', .source src' ∈ .source src :: rest → .source src' ∈ s.input := fun src' hm =>
      afterOffered_inputs s.input src' (hin ▸ hm)
    exact ⟨(hs.with_input fun src' hm => hsub src' (.tail _ hm)).with_source (hs.inputs src (hsub src (.head _))), rfl⟩
  · exact ⟨hardwareReset_keeps_inv (hs.with_input fun src => (fetch_inputs s.width s.input src).2.1 rest hf), rfl⟩
  · have hsrc := fun src' => (fetch_inputs s.width s.input src').2.2 src rest hf
    exact ⟨(hs.with_input fun src' => (hsrc src').2).with_source (hs.inputs src (hsrc src).1), rfl⟩
  · have hs' := hs.with_input fun src => (fetch_inputs s.width s.input src).1 bytes rest hf
    obtain ⟨hu, hw⟩ := runFrame_keeps_inv hrun hs' hp
    obtain rfl | ⟨k, r, rfl, rfl⟩ | ⟨k, r, key, block, rfl, rfl⟩ := hend
    · exact ⟨hu, hw⟩
    · exact ⟨cutShort_inv hs' hu fun _ => .tail _, rfl⟩
    · exact ⟨stalled_inv hs' hu fun _ => .tail _, rfl⟩

/-! The state after reset, and the clamp. -/

/-- Settles O56: right after reset there is no `Instance`, no request, an empty source and no input. -/
theorem invariantAtReset : Obligations.InvariantAtReset := fun _ =>
  { inst := fun _ h => nomatch h
    pending := fun _ _ h => nomatch h
    memory := ⟨.nil, fun _ h => nomatch h⟩
    inputs := fun _ h => nomatch h }

/-- Settles O54: the state after reset, field by field, is its definition. -/
theorem resetLeavesNoInstance : Obligations.ResetLeavesNoInstance :=
  ⟨fun _ => ⟨rfl, rfl, rfl, rfl, rfl, rfl, rfl, rfl⟩, rfl, rfl⟩

theorem clamp_of_len_le {x : Instance} (h : len x ≤ x.pos) (count : Nat) : clamp x count = 0 := if_pos h

theorem clamp_of_pos_lt {x : Instance} (h : x.pos < len x) (count : Nat) : clamp x count = min count (len x - x.pos) :=
  if_neg (Nat.not_le.mpr h)

/-- Settles O26, by the two cases of the clamp: beyond the end it is 0, and below the end it stops at the end. -/
theorem clampStaysWithinLength : Obligations.ClampStaysWithinLength := by
  intro x count _
  refine ⟨fun h => clamp_of_len_le h count, fun h => ?_, (clamp_le x count).1⟩
  have hc : clamp x count = min count (x.srclen - x.hdr - x.pos) := clamp_of_pos_lt h count
  exact ⟨hc, by omega⟩

/-! The walk of a `READ`, from any `Instance`: what it leaves alone, and what it puts on the ports (R134, R135, R136). -/

/-- The elements that `INIT` writes and nothing changes after it (R38). -/
def Instance.config (x : Instance) : Bytes16 × Bytes16 × Nat × Nat := (x.key, x.iv, x.hdr, x.srclen)

theorem Instance.config_eq_iff {x y : Instance} :
    x.config = y.config ↔ x.key = y.key ∧ x.iv = y.iv ∧ x.hdr = y.hdr ∧ x.srclen = y.srclen := by
  simp only [Instance.config, Prod.mk.injEq]

@[simp] theorem positioned_config (E : Cipher) (x : Instance) (t : Nat) : (positioned E x t).config = x.config := rfl

@[simp] theorem crossBlock_pos (E : Cipher) (x : Instance) : (crossBlock E x).1.pos = x.pos := by
  rw [crossBlock]
  split <;> rfl

@[simp] theorem crossBlock_config (E : Cipher) (x : Instance) : (crossBlock E x).1.config = x.config := by
  rw [crossBlock]
  split <;> rfl

@[simp] theorem byteMix_config (E : Cipher) (x : Instance) (b : Byte) : (byteMix E x b).1.config = x.config :=
  crossBlock_config E x

@[simp] theorem mixAll_config (E : Cipher) (x : Instance) (data : List Byte) : (mixAll E x data).1.config = x.config := by
  induction data generalizing x with
  | nil => rfl
  | cons b bs ih => rw [mixAll, ih, byteMix_config]

/-- The crossing makes no source request. -/
theorem src_notMem_crossBlock (E : Cipher) (x : Instance) (addr n : Nat) (ans : SrcAnswer) :
    Event.src addr n ans ∉ (crossBlock E x).2 := by
  rw [crossBlock]
  split <;> simp [ksRefill]

/-- The walk of a `READ` makes no source request: the one it has is made before it (R133). -/
theorem src_notMem_mixAll (E : Cipher) (x : Instance) (data : List Byte) (addr n : Nat) (ans : SrcAnswer) :
    Event.src addr n ans ∉ (mixAll E x data).2 := by
  induction data generalizing x with
  | nil => simp [mixAll]
  | cons b bs ih => simp [mixAll, ih, src_notMem_crossBlock]

/-! The configuration of an `Instance`, and who moves its cursor (R20, R38). -/

theorem exec_release_of_some {s : State} {x : Instance} (h : s.inst = some x) :
    exec .release s = .next (respond .ok 0 { s with inst := none }) := by
  simp only [exec, execRelease, whenConfigured_some h]

/-- Every command but `RELEASE` keeps the `Instance`, and its configuration (R38). -/
theorem exec_keeps_config {i : Instr} {s t : State} {x : Instance} (h : exec i s = .next t) (hx : s.inst = some x)
    (hi : i ≠ .release) : ∃ y, t.inst = some y ∧ y.config = x.config := by
  obtain h | h | h | h | h := exec_next_cases h
  · obtain ⟨_, _, -, rfl⟩ := h
    exact ⟨x, hx, rfl⟩
  · obtain ⟨_, _, _, _, -, hnone, -⟩ := h
    cases hnone.symm.trans hx
  · obtain ⟨_, hrel, -⟩ := h
    exact absurd hrel hi
  · obtain ⟨y, n, -, hy, -, rfl⟩ := h
    cases hy.symm.trans hx
    exact ⟨_, rfl, positioned_config Config.E x n⟩
  · obtain ⟨y, _, _, -, hy, -, -, rfl | ⟨_, rfl⟩ | ⟨data, -, rfl⟩⟩ := h.cases
    · exact ⟨x, hx, rfl⟩
    · exact ⟨x, hx, rfl⟩
    · cases hy.symm.trans hx
      exact ⟨_, rfl, mixAll_config Config.E x data⟩

/-- Settles O52: no operation on a live `Instance` but `RELEASE` reaches its configuration. -/
theorem configurationIsImmutable : Obligations.ConfigurationIsImmutable := by
  intro i s x hx
  obtain ⟨t, ht, -⟩ := exec_cases i s
  refine ⟨t, ht, fun hi => ?_, fun hi => ?_⟩
  · obtain ⟨y, hy, hconf⟩ := exec_keeps_config ht hx hi
    exact ⟨y, hy, Instance.config_eq_iff.mp hconf⟩
  · subst hi
    cases (exec_release_of_some hx).symm.trans ht
    rfl

/-- Settles O53, by the cases of `exec`: with an `Instance`, what is neither `RELEASE`, nor a position set, nor a `READ` only
responds. -/
theorem onlySeeksAndReadsMoveTheCursor : Obligations.OnlySeeksAndReadsMoveTheCursor := by
  intro i s x hx hcmd
  obtain ⟨t, ht, h | h | h | h | h⟩ := exec_cases i s
  · obtain ⟨_, _, -, rfl⟩ := h
    exact ⟨_, ht, hx⟩
  · obtain ⟨_, _, _, _, -, hnone, -⟩ := h
    cases hnone.symm.trans hx
  · obtain ⟨_, rfl, -⟩ := h
    exact absurd (by decide) hcmd
  · obtain ⟨_, _, hset, -⟩ := h
    exact absurd (by simp only [List.mem_cons] at hset ⊢; tauto) hcmd
  · obtain ⟨_, _, rfl, -⟩ := h
    exact absurd (by simp [Instr.cmd]) hcmd

/-! The lag and the cached block (R31, R34). -/

theorem lag_eq_ite_crosses (x : Instance) : lag x = if crosses x = true then 1 else 0 := by
  split
  · exact lag_of_crosses ‹_›
  · exact lag_of_not_crosses ‹_›

theorem crosses_iff_lag (x : Instance) : crosses x = true ↔ lag x = 1 := by
  rw [lag_eq_ite_crosses]
  split <;> simp_all

/-- A crossing comes only where a block lies before that of `POS`. -/
theorem lag_le_blockIndex (x : Instance) : lag x ≤ x.pos / 16 := by
  by_cases hc : crosses x = true
  · obtain ⟨h16, hpos, -⟩ := (crosses_iff x).mp hc
    rw [lag_of_crosses hc]
    omega
  · rw [lag_of_not_crosses hc]
    exact Nat.zero_le _

theorem lag_byteMix (E : Cipher) (x : Instance) (b : Byte) :
    lag (byteMix E x b).1 = if (x.pos + 1) % 16 = 0 then 1 else 0 := by
  simp only [lag, byteMix_pos, crossBlock_pos, byteMix_fresh, Nat.succ_pos, and_true, BLK_eq]

/-- After `BYTE.MIX` the cache holds the block of the byte just mixed (R134). -/
theorem keystreamBlock_byteMix (E : Cipher) (x : Instance) (b : Byte) : keystreamBlock (byteMix E x b).1 = x.pos / 16 := by
  simp only [keystreamBlock, blockIndex, lag_byteMix, byteMix_pos, crossBlock_pos, BLK_eq]
  split <;> omega

/-- Settles O44: the crossing is `lag = 1`, where `KSBLK` is one behind, and each update is that of `POS` and `FRESH`. -/
theorem lagAndBlockIndexReplaceFresh : Obligations.LagAndBlockIndexReplaceFresh := by
  intro E w x _
  have hblk : keystreamBlock x = x.pos / 16 - lag x := rfl
  have hle := lag_le_blockIndex x
  have hlag := lag_eq_ite_crosses x
  refine ⟨crosses_iff_lag x, ?_, hblk, fun t => ?_, fun b => ⟨?_, ?_⟩⟩
  · rw [crosses_iff_lag, hblk]
    split at hlag <;> omega
  · have h0 : lag (placeAt E x t).1 = 0 := lag_of_fresh rfl
    exact ⟨h0, by rw [keystreamBlock, h0]; rfl⟩
  · simp [lag_byteMix, lagAfterMix]
  · rw [keystreamBlock_byteMix, hblk, ← hlag]
    omega

/-- Settles O58: the walk of a `READ` never leaves the invariant, which says R31 and R32 of where it ends. -/
theorem counterFollowsPositionWithLag : Obligations.CounterFollowsPositionWithLag := by
  intro E w x data hx hp
  obtain ⟨hinv, hpos, -⟩ := mixAll_spec data hx hp
  exact ⟨_, rfl, hpos, hinv.counter, hinv.keystream⟩

/-! Source requests (R33, R52, R57). -/

theorem newEvents_of_append {s t : State} {es : List Event} (h : t.events = s.events ++ es) : newEvents s t = es := by
  rw [newEvents, h, List.drop_left]

/-- The only source request of a command is that of a `READ` with a clamped count of at least 1, at the physical address of `POS`
(R133). -/
theorem src_mem_newEvents {i : Instr} {s t : State} {addr n : Nat} {ans : SrcAnswer} (h : exec i s = .next t)
    (hmem : Event.src addr n ans ∈ newEvents s t) :
    ∃ x count, i = .read count ∧ s.inst = some x ∧ clamp x count ≠ 0 ∧ addr = physAddr x x.pos ∧ n = clamp x count := by
  obtain h | h | h | h | h := exec_next_cases h
  · obtain ⟨_, _, -, rfl⟩ := h
    simp [newEvents] at hmem
  · obtain ⟨_, _, _, _, -, -, -, -, _, -, rfl⟩ := h
    simp [newEvents] at hmem
  · obtain ⟨_, -, -, rfl⟩ := h
    simp [newEvents] at hmem
  · obtain ⟨_, _, -, -, -, rfl⟩ := h
    simp [newEvents, repositioned] at hmem
  · obtain ⟨x, count, _, hi, hx, hc, -, rfl | ⟨_, rfl⟩ | ⟨data, -, rfl⟩⟩ := h.cases
    · simp [newEvents] at hmem
    · obtain ⟨ha, hn, -⟩ : addr = physAddr x x.pos ∧ n = clamp x count ∧ _ := by simpa [newEvents] using hmem
      exact ⟨x, count, hi, hx, hc, ha, hn⟩
    · obtain ⟨ha, hn, -⟩ : addr = physAddr x x.pos ∧ n = clamp x count ∧ _ := by
        simpa [newEvents, src_notMem_mixAll] using hmem
      exact ⟨x, count, hi, hx, hc, ha, hn⟩

/-- Settles O39: the one request a command can make is at `POS + HDR`, and the clamp keeps it below `SRCLEN`. -/
theorem sourceRequestsStayInside : Obligations.SourceRequestsStayInside := by
  intro i s t x addr n ans hs hx hexec hmem
  obtain ⟨y, count, -, hy, hc, rfl, rfl⟩ := src_mem_newEvents hexec hmem
  cases hy.symm.trans hx
  exact ⟨Nat.le_add_left _ _, Nat.pos_of_ne_zero hc, physAddr_add_clamp_le (hs.inst x hx).hdr_le hc, rfl⟩

/-! What shows of a command on the ports (R13, R35): its bytes and its responses. -/

theorem outBytes_append (l m : List Event) : outBytes (l ++ m) = outBytes l ++ outBytes m := by
  induction l with
  | nil => rfl
  | cons e es ih =>
    cases e with
    | out b => simp only [List.cons_append, outBytes, ih]
    | src addr n a => exact ih
    | enc key block ks => exact ih
    | rsp st v => exact ih

theorem responses_append (l m : List Event) : responses (l ++ m) = responses l ++ responses m := by
  induction l with
  | nil => rfl
  | cons e es ih =>
    cases e with
    | rsp st v => simp only [List.cons_append, responses, ih]
    | out b => exact ih
    | src addr n a => exact ih
    | enc key block ks => exact ih

theorem responses_length (l : List Event) : (responses l).length = rspCount l := by
  induction l with
  | nil => rfl
  | cons e es ih =>
    cases e with
    | rsp st v => simp only [responses, rspCount, List.length_cons, ih]
    | out b => exact ih
    | src addr n a => exact ih
    | enc key block ks => exact ih

/-- The walk of a `READ` gives no response (R135). -/
theorem responses_mixAll (E : Cipher) (x : Instance) (data : List Byte) : responses (mixAll E x data).2 = [] :=
  List.eq_nil_of_length_eq_zero (by rw [responses_length, rspCount_mixAll])

/-- The bytes of a walk are the source's, each under the keystream of its position (R138): where cipher requests come between
them does not matter. -/
theorem outBytes_mixEvents (E : Cipher) (key iv : Bytes16) (p : Nat) (ready : Bool) (data : List Byte) :
    outBytes (mixEvents E key iv p ready data) = data.mapIdx fun j b => b ^^^ keystreamAt E key iv (p + j) := by
  induction data generalizing p ready with
  | nil => rfl
  | cons b bs ih =>
    have hshift : (fun j c => c ^^^ keystreamAt E key iv (p + 1 + j)) =
        fun (j : Nat) (c : Byte) => c ^^^ keystreamAt E key iv (p + (j + 1)) := by
      funext j c
      rw [Nat.add_right_comm, Nat.add_assoc]
    rw [mixEvents, outBytes_append, outBytes, ih, List.mapIdx_cons, hshift, Nat.add_zero]
    split <;> rfl

theorem outBytes_mixAll {E : Cipher} {w : Config.Width} {x : Instance} (h : x.Inv E w) {data : List Byte}
    (hp : x.pos + data.length ≤ w.posMax) :
    outBytes (mixAll E x data).2 = data.mapIdx fun j b => b ^^^ keystreamAt E x.key x.iv (x.pos + j) := by
  obtain ⟨-, -, -, -, -, -, -, hev⟩ := mixAll_spec data h hp
  rw [hev, outBytes_mixEvents]

/-! Two runs that differ in `FRESH`, `CTR` and `KS` only (R30, R35). -/

/-- The commands that led from `s` to `t` and from `s'` to `t'` show the same, and leave the same. -/
structure ShowSame (s t s' t' : State) : Prop where
  alike : t.Alike t'
  bytes : outBytes (newEvents s t) = outBytes (newEvents s' t')
  responses : responses (newEvents s t) = responses (newEvents s' t')

theorem ShowSame.of_appended {s t s' t' : State} {es es' : List Event} (ht : t.events = s.events ++ es)
    (ht' : t'.events = s'.events ++ es') (h : t.Alike t') (ho : outBytes es = outBytes es')
    (hr : Machine.responses es = Machine.responses es') : ShowSame s t s' t' :=
  ⟨h, by rwa [newEvents_of_append ht, newEvents_of_append ht'], by rwa [newEvents_of_append ht, newEvents_of_append ht']⟩

theorem Instance.shown_eq_iff {x y : Instance} :
    x.shown = y.shown ↔ x.key = y.key ∧ x.iv = y.iv ∧ x.hdr = y.hdr ∧ x.srclen = y.srclen ∧ x.pos = y.pos := by
  simp only [Instance.shown, Prod.mk.injEq]

/-- An `Instance` that shows the same differs in `CTR`, `KS` and `FRESH` alone. -/
theorem Instance.eq_of_shown_eq {x y : Instance} (h : x.shown = y.shown) :
    y = { x with ctr := y.ctr, ks := y.ks, fresh := y.fresh } := by
  obtain ⟨hkey, hiv, hhdr, hsrclen, hpos⟩ := shown_eq_iff.mp h
  rw [hkey, hiv, hhdr, hsrclen, hpos]

/-! The values a command computes with are made of what shows (R27, R58, R116 to R118, R131). -/

section
variable {x x' : Instance} (hx : x.shown = x'.shown)
include hx

theorem pos_of_shown_eq : x.pos = x'.pos := by
  rw [Instance.eq_of_shown_eq hx]

theorem len_of_shown_eq : len x = len x' := by
  rw [Instance.eq_of_shown_eq hx]
  rfl

theorem clamp_of_shown_eq (count : Nat) : clamp x count = clamp x' count := by
  rw [Instance.eq_of_shown_eq hx]
  rfl

theorem physAddr_of_shown_eq (p : Nat) : physAddr x p = physAddr x' p := by
  rw [Instance.eq_of_shown_eq hx]
  rfl

theorem seekTarget_of_shown_eq (origin : Origin) (off : Int) : seekTarget x origin off = seekTarget x' origin off := by
  rw [Instance.eq_of_shown_eq hx]
  rfl

end

/-! Every kind of command shows the same. -/

/-- There is an `Instance` in both states or in neither. -/
theorem State.Alike.inst_cases {s s' : State} (h : s.Alike s') :
    (s.inst = none ∧ s'.inst = none) ∨ ∃ x x', s.inst = some x ∧ s'.inst = some x' ∧ x.shown = x'.shown := by
  have hinst := h.inst
  cases hx : s.inst <;> cases hx' : s'.inst <;> simp_all

theorem respond_showSame {s s' : State} (h : s.Alike s') (st : Status) (v : Nat) :
    ShowSame s (respond st v s) s' (respond st v s') :=
  .of_appended rfl rfl ⟨h.width, h.inst, h.pending, h.source⟩ rfl rfl

/-- The configured check, whose body runs on two instances that show the same. -/
theorem whenConfigured_showSame {s s' : State} (h : s.Alike s') {body body' : Instance → State}
    (hb : ∀ x x', s.inst = some x → s'.inst = some x' → x.shown = x'.shown → ShowSame s (body x) s' (body' x')) :
    ShowSame s (whenConfigured s body) s' (whenConfigured s' body') := by
  obtain ⟨hx, hx'⟩ | ⟨x, x', hx, hx', hshown⟩ := h.inst_cases
  · rw [whenConfigured_none hx, whenConfigured_none hx']
    exact respond_showSame h _ _
  · rw [whenConfigured_some hx, whenConfigured_some hx']
    exact hb x x' hx hx' hshown

/-- A position set takes nothing from `FRESH`, `CTR` or `KS` (R110). -/
theorem setPosition_showSame {s s' : State} (h : s.Alike s') {x x' : Instance} (hx : x.shown = x'.shown) (t : Int) :
    ShowSame s (setPosition Config.E x t s) s' (setPosition Config.E x' t s') := by
  rw [Instance.eq_of_shown_eq hx]
  by_cases ht : 0 ≤ t ∧ t ≤ (s.width.posMax : Int)
  · rw [setPosition_legal ht, setPosition_legal (h.width ▸ ht)]
    exact .of_appended (List.append_assoc _ _ _) (List.append_assoc _ _ _) ⟨h.width, rfl, h.pending, h.source⟩ rfl rfl
  · rw [setPosition_illegal ht, setPosition_illegal (h.width ▸ ht)]
    exact respond_showSame h _ _

theorem seekWith_showSame {s s' : State} (h : s.Alike s') (origin : Origin) (off : Int) :
    ShowSame s (seekWith Config.E origin off s) s' (seekWith Config.E origin off s') :=
  whenConfigured_showSame h fun x x' _ _ hx => by
    rw [seekTarget_of_shown_eq hx]
    exact setPosition_showSame h hx _

/-- The walk of a `READ` over the same bytes, from two good instances that show the same. -/
theorem mixAll_showSame {E : Cipher} {w : Config.Width} {x x' : Instance} (h : x.Inv E w) (h' : x'.Inv E w)
    (hx : x.shown = x'.shown) {data : List Byte} (hp : x.pos + data.length ≤ w.posMax) :
    (mixAll E x data).1.shown = (mixAll E x' data).1.shown ∧
      outBytes (mixAll E x data).2 = outBytes (mixAll E x' data).2 := by
  obtain ⟨hkey, hiv, hhdr, hsrclen, hpos⟩ := Instance.shown_eq_iff.mp hx
  have hp' : x'.pos + data.length ≤ w.posMax := hpos ▸ hp
  obtain ⟨-, hq, hk, hv, hh, hl, -⟩ := mixAll_spec data h hp
  obtain ⟨-, hq', hk', hv', hh', hl', -⟩ := mixAll_spec data h' hp'
  constructor
  · simp only [Instance.shown, hq, hk, hv, hh, hl, hq', hk', hv', hh', hl', hkey, hiv, hhdr, hsrclen, hpos]
  · rw [outBytes_mixAll h hp, outBytes_mixAll h' hp', hkey, hiv, hpos]

/-- A `READ` after its request: the same answer from the source shows the same (R135). -/
theorem readAnswered_showSame {s s' : State} (h : s.Alike s') {w : Config.Width} {x x' : Instance} (hi : x.Inv Config.E w)
    (hi' : x'.Inv Config.E w) (hx : x.shown = x'.shown) (n : Nat) (src : Source) (a : Option SrcAnswer)
    (hd : ∀ data, a = some (.ok data) → x.pos + data.length ≤ w.posMax) :
    ShowSame s (readAnswered Config.E x n { s with source := src } a)
      s' (readAnswered Config.E x' n { s' with source := src } a) := by
  have hphys : physAddr x x.pos = physAddr x' x'.pos := by rw [physAddr_of_shown_eq hx, pos_of_shown_eq hx]
  cases a with
  | none =>
    refine .of_appended (List.append_nil _).symm (List.append_nil _).symm ⟨h.width, h.inst, ?_, rfl⟩ rfl rfl
    simp only [readAnswered, hphys]
  | some a =>
    cases a with
    | err code =>
      exact .of_appended (List.append_assoc _ _ _) (List.append_assoc _ _ _) ⟨h.width, h.inst, h.pending, rfl⟩ rfl rfl
    | ok data =>
      obtain ⟨hshown, hout⟩ := mixAll_showSame hi hi' hx (hd data rfl)
      refine .of_appended (List.append_assoc _ _ _) (List.append_assoc _ _ _)
        ⟨h.width, congrArg some hshown, h.pending, rfl⟩ ?_ ?_
      · simp only [List.cons_append, outBytes, outBytes_append, hout]
      · simp only [List.cons_append, responses, responses_append, responses_mixAll]

/-- `READ` asks the same request of the same source, so that it gets the same answer (R131, R133). -/
theorem readWith_showSame {s s' : State} (hs : s.Inv) (hs' : s'.Inv) (h : s.Alike s') (count : Nat) :
    ShowSame s (readWith Config.E count s) s' (readWith Config.E count s') := by
  refine whenConfigured_showSame h fun x x' hinst hinst' hx => ?_
  have hi := hs.inst x hinst
  have hfetch : readFetch x' (clamp x count) s' = readFetch x (clamp x count) s := by
    rw [readFetch, readFetch, h.width, h.source, physAddr_of_shown_eq hx, pos_of_shown_eq hx]
  simp only [readInstance, ← clamp_of_shown_eq hx, hfetch]
  split
  · exact respond_showSame h _ _
  · rename_i hc
    exact readAnswered_showSame h hi (h.width ▸ hs'.inst x' hinst') hx _ _ _ fun data hdata =>
      pos_add_length_le_posMax hi hc (srcRead_data_le hdata)

/-- `INIT` takes nothing from the state but whether there is an `Instance`, and the width (R111, R181). -/
theorem initWith_showSame {s s' : State} (h : s.Alike s') (key iv : Bytes16) (hdr srclen : Nat) :
    ShowSame s (initWith Config.E key iv hdr srclen s) s' (initWith Config.E key iv hdr srclen s') := by
  obtain ⟨hx, hx'⟩ | ⟨x, x', hx, hx', -⟩ := h.inst_cases
  · by_cases hl : legalConfig s.width hdr srclen = true
    · have hl' : legalConfig s'.width hdr srclen = true := h.width ▸ hl
      simp only [initWith, hx, hx', if_pos hl, if_pos hl']
      exact .of_appended (List.append_assoc _ _ _) (List.append_assoc _ _ _) ⟨h.width, rfl, h.pending, h.source⟩ rfl rfl
    · have hl' : ¬ legalConfig s'.width hdr srclen = true := h.width ▸ hl
      simp only [initWith, hx, hx', if_neg hl, if_neg hl']
      exact respond_showSame h _ _
  · simp only [initWith, hx, hx']
    exact respond_showSame h _ _

/-- `RELEASE` (R112). -/
theorem release_showSame {s s' : State} (h : s.Alike s') :
    ShowSame s (whenConfigured s fun _ => respond .ok 0 { s with inst := none })
      s' (whenConfigured s' fun _ => respond .ok 0 { s' with inst := none }) :=
  whenConfigured_showSame h fun _ _ _ _ _ => .of_appended rfl rfl ⟨h.width, rfl, h.pending, h.source⟩ rfl rfl

/-- A query responds with what shows (R113, R114). -/
theorem query_showSame {s s' : State} (h : s.Alike s') {value : Instance → Nat}
    (hv : ∀ x x', x.shown = x'.shown → value x = value x') :
    ShowSame s (whenConfigured s fun x => respond .ok (value x) s) s' (whenConfigured s' fun x => respond .ok (value x) s') :=
  whenConfigured_showSame h fun x x' _ _ hx => by
    rw [hv x x' hx]
    exact respond_showSame h _ _

/-- Every command shows the same from two good states that differ in `FRESH`, `CTR` and `KS` only. -/
theorem exec_showSame {s s' : State} (hs : s.Inv) (hs' : s'.Inv) (h : s.Alike s') (i : Instr) :
    ∃ t t', exec i s = .next t ∧ exec i s' = .next t' ∧ ShowSame s t s' t' := by
  cases i with
  | init key iv hdr srclen => exact ⟨_, _, rfl, rfl, initWith_showSame h key iv hdr srclen⟩
  | release => exact ⟨_, _, rfl, rfl, release_showSame h⟩
  | getlen => exact ⟨_, _, rfl, rfl, query_showSame h fun _ _ hx => len_of_shown_eq hx⟩
  | getpos => exact ⟨_, _, rfl, rfl, query_showSame h fun _ _ hx => pos_of_shown_eq hx⟩
  | setpos p => exact ⟨_, _, rfl, rfl, whenConfigured_showSame h fun _ _ _ _ hx => setPosition_showSame h hx p⟩
  | seekBegin off => exact ⟨_, _, rfl, rfl, seekWith_showSame h .fromBegin off⟩
  | seekCur off => exact ⟨_, _, rfl, rfl, seekWith_showSame h .fromCurrent off⟩
  | seekEnd off => exact ⟨_, _, rfl, rfl, seekWith_showSame h .fromEnd off⟩
  | read count => exact ⟨_, _, rfl, rfl, readWith_showSame hs hs' h count⟩
  | write count => exact ⟨_, _, rfl, rfl, respond_showSame h _ _⟩
  | setlen length => exact ⟨_, _, rfl, rfl, respond_showSame h _ _⟩
  | flush => exact ⟨_, _, rfl, rfl, respond_showSame h _ _⟩

/-- Settles O45, command by command: what each takes from the state is what shows, and the bytes of a `READ` are the source's
under the keystream of their positions. -/
theorem hiddenStateNeverShowsInOutput : Obligations.HiddenStateNeverShowsInOutput := by
  intro i s s' hs hs' h
  obtain ⟨t, t', ht, ht', hsame⟩ := exec_showSame hs hs' h i
  exact ⟨t, t', ht, ht', hsame.alike, hsame.bytes, hsame.responses⟩

end Sys2Proof.Machine

/-! What the proofs of the statements about the source add to the laws: what its memory holds after a write, what it answers, and
what a command leaves of it and asks of it (20_memory.md). -/

namespace Sys2Proof.Machine

open Config (Cipher)

/-! The source's memory (R50): a read after a write. -/

/-- The byte written is read back. Where it is the byte an unlisted address reads as, the rising addresses say that no other cell
stands for this address. -/
theorem Memory.read_write_same {m : Memory} (h : m.wf) (a : Nat) (v : Byte) : (m.write a v).read a = v := by
  obtain ⟨hs, -⟩ := h
  induction m with
  | nil => by_cases hv : v = Memory.unlisted <;> simp [Memory.write, Memory.read, hv]
  | cons c m ih =>
    obtain ⟨k, b⟩ := c
    obtain ⟨hhead, htail⟩ := List.pairwise_cons.mp hs
    simp only [Memory.write]
    split
    · rename_i hlt
      split
      · rename_i hv
        rw [hv, Memory.read_of_lt]
        rintro c (_ | ⟨_, hc⟩)
        · exact hlt
        · exact hlt.trans (hhead c hc)
      · simp [Memory.read]
    · split
      · rename_i heq
        split
        · rename_i hv
          rw [hv, Memory.read_of_lt fun c hc => heq ▸ hhead c hc]
        · simp [Memory.read]
      · rename_i hne
        rw [Memory.read, if_neg (Ne.symm hne), ih htail]

/-- Every other address reads as before, in any form of the list. -/
theorem Memory.read_write_of_ne (m : Memory) {a b : Nat} (v : Byte) (h : b ≠ a) : (m.write a v).read b = m.read b := by
  induction m with
  | nil => by_cases hv : v = Memory.unlisted <;> simp [Memory.write, Memory.read, hv, h.symm]
  | cons c m ih =>
    obtain ⟨k, d⟩ := c
    simp only [Memory.write]
    split
    · split
      · rfl
      · rw [Memory.read, if_neg h.symm]
    · split
      · rename_i heq
        subst heq
        split <;> simp [Memory.read, h.symm]
      · simp only [Memory.read, ih]

/-- Settles O59: the canonical form by `write_keeps_wf`, the two kinds of address by the reads after a write. -/
theorem memoryReadsWhatWasWritten : Obligations.MemoryReadsWhatWasWritten := fun m a v h =>
  ⟨Memory.write_keeps_wf h a v, Memory.read_write_same h a v, fun _ hb => Memory.read_write_of_ne m v hb⟩

/-! The answers of the source (R52, R53). -/

/-- What the ideal source holds from `addr` on, as far as was asked and as far as it goes (R53). -/
theorem idealData_ofBytes (bytes : List Byte) (addr n : Nat) :
    idealData (Source.ofBytes bytes) addr n = (bytes.drop addr).take n := by
  refine List.ext_getElem (by simp [idealData, Source.ofBytes]) fun j _ hj => ?_
  have hread := Memory.read_ofBytes 0 bytes (addr + j)
  have hlt : addr + j < bytes.length := by simp at hj; omega
  simp only [idealData, Memory.readBytes_getElem, List.getElem_take, List.getElem_drop]
  rw [← List.getD_eq_getElem _ Memory.unlisted hlt, ← hread, Nat.zero_add, Source.ofBytes]

theorem srcRead_ofBytes (w : Config.Width) (bytes : List Byte) (addr n : Nat) :
    srcRead w addr n (Source.ofBytes bytes) = (some (.ok ((bytes.drop addr).take n)), Source.ofBytes bytes) := by
  rw [← idealData_ofBytes]
  rfl

/-- Settles O34: the ideal source has no script, and reads its cells in address order. -/
theorem idealSourceAnswers : Obligations.IdealSourceAnswers := fun w bytes addr n =>
  ⟨srcRead_ofBytes w bytes addr n, by rw [List.length_take, List.length_drop]⟩

/-- Data within the contract of R52 comes as it is. -/
theorem boundAnswer_ok {w : Config.Width} {n : Nat} {data : List Byte} (h : data.length ≤ n) :
    boundAnswer w n (.ok data) = .ok data := by
  rw [boundAnswer, List.take_of_length_le h]

/-- A code within the contract of R52 comes as it is. -/
theorem boundAnswer_err {w : Config.Width} {n code : Nat} (h0 : 0 < code) (h : code < 2 ^ w.posw) :
    boundAnswer w n (.err code) = .err code := by
  rw [boundAnswer, min_eq_left (Nat.le_sub_one_of_lt h), max_eq_right h0]

/-- An error code of the source is a word other than 0 (R52). -/
theorem srcRead_code_range {w : Config.Width} {addr n : Nat} {src : Source} {code : Nat}
    (h : (srcRead w addr n src).1 = some (.err code)) : 0 < code ∧ code < 2 ^ w.posw := by
  obtain ⟨-, -, hr | ⟨c, hr, hc⟩ | ⟨d, hr, -⟩⟩ := srcRead_cases w addr n src
  · cases h.symm.trans hr
  · cases h.symm.trans hr
    exact hc
  · cases h.symm.trans hr

/-- Settles O35: a scripted answer within the contract passes the bound unchanged, and every answer is within it. -/
theorem sourceAnswersWithinContract : Obligations.SourceAnswersWithinContract := by
  refine ⟨fun w src addr n data rest h => ?_, fun w src addr n code rest h0 h => ?_, fun w src addr n => ?_⟩
  · simp only [srcRead, boundAnswer_ok h]
  · simp only [srcRead, boundAnswer_err h0 h]
  · obtain ⟨hmem, hphys, -⟩ := srcRead_cases w addr n src
    exact ⟨hmem, hphys, fun _ => srcRead_data_le, fun _ => srcRead_code_range⟩

/-! What a command leaves of the source and the ports (R50, R51, R81). -/

/-- What a `READ` does with the answer does not reach the source. -/
@[simp] theorem readAnswered_source (E : Cipher) (x : Instance) (n : Nat) (s : State) (a : Option SrcAnswer) :
    (readAnswered E x n s a).source = s.source := by
  match a with
  | none => rfl
  | some (.err _) => rfl
  | some (.ok _) => rfl

/-- A command other than `READ` leaves source and wait alone, and puts out no byte. -/
theorem exec_frame_of_not_read {i : Instr} {s t : State} (h : exec i s = .next t) (hi : i.cmd ≠ .read) :
    t.source = s.source ∧ t.pending = s.pending ∧ outBytes (newEvents s t) = [] := by
  obtain h | h | h | h | h := exec_next_cases h
  · obtain ⟨_, _, -, rfl⟩ := h
    exact ⟨rfl, rfl, by rw [newEvents_of_append rfl]; rfl⟩
  · obtain ⟨_, _, _, _, -, -, -, -, _, -, rfl⟩ := h
    exact ⟨rfl, rfl, by rw [newEvents_of_append rfl]; rfl⟩
  · obtain ⟨_, -, -, rfl⟩ := h
    exact ⟨rfl, rfl, by rw [newEvents_of_append rfl]; rfl⟩
  · obtain ⟨_, _, -, -, -, rfl⟩ := h
    exact ⟨rfl, rfl, by rw [newEvents_of_append rfl]; rfl⟩
  · obtain ⟨_, _, rfl, -⟩ := h
    exact absurd rfl hi

/-- No command changes what the source holds: a `READ` only asks it (R51). -/
theorem exec_source_holds {i : Instr} {s t : State} (h : exec i s = .next t) :
    t.source.mem = s.source.mem ∧ t.source.phys = s.source.phys := by
  obtain h | h | h | h | h := exec_next_cases h
  · obtain ⟨_, _, -, rfl⟩ := h
    exact ⟨rfl, rfl⟩
  · obtain ⟨_, _, _, _, -, -, -, -, _, -, rfl⟩ := h
    exact ⟨rfl, rfl⟩
  · obtain ⟨_, -, -, rfl⟩ := h
    exact ⟨rfl, rfl⟩
  · obtain ⟨_, _, -, -, -, rfl⟩ := h
    exact ⟨rfl, rfl⟩
  · obtain ⟨x, count, -, -, -, rfl⟩ := h
    obtain ⟨hmem, hphys, -⟩ := srcRead_cases s.width (x.pos + x.hdr) (clamp x count) s.source
    rw [readAnswered_source]
    exact ⟨hmem, hphys⟩

/-- Settles O38: every command keeps what the source holds, and only a `READ` has a source request among its events. -/
theorem blockNeverWritesSource : Obligations.BlockNeverWritesSource := by
  intro i s
  obtain ⟨t, ht, -⟩ := exec_cases i s
  obtain ⟨hmem, hphys⟩ := exec_source_holds ht
  refine ⟨t, ht, hmem, hphys, fun a => by rw [hmem], fun hi => ?_⟩
  obtain ⟨hsource, hpending, hout⟩ := exec_frame_of_not_read ht hi
  refine ⟨hsource, hpending, hout, fun addr n ans hsrc => ?_⟩
  obtain ⟨_, _, rfl, -⟩ := src_mem_newEvents ht hsrc
  exact hi rfl

/-! A `READ` over the source as it is (R59, R62). -/

/-- A change of the source is a step of its own, of a block that accepts frames and of one that waits. -/
theorem step_source {s : State} {src : Source} {rest : List PortInput} (h : s.input = .source src :: rest) :
    step s = .next { s with source := src, input := rest } := by
  cases hp : s.pending with
  | none => simp only [step, hp, stepReady, h, fetch]
  | some q => simp only [step, hp, stepWaiting, h, afterOffered]

/-- A `READ` that is answered with data mixes it (R135). -/
theorem exec_read_of_data {s : State} {x : Instance} {count : Nat} {data : List Byte} {src : Source} (hx : s.inst = some x)
    (hc : clamp x count ≠ 0) (hr : srcRead s.width (x.pos + x.hdr) (clamp x count) s.source = (some (.ok data), src)) :
    ∃ t, exec (.read count) s = .next t ∧ t.source = src ∧ newEvents s t =
      .src (x.pos + x.hdr) (clamp x count) (.ok data) :: (mixAll Config.E x data).2 ++ [.rsp .ok data.length] := by
  refine ⟨_, rfl, ?_⟩
  rw [readWith, whenConfigured_some hx, readInstance, if_neg hc]
  simp only [readFetch, physAddr, hr, readAnswered_source, true_and]
  exact newEvents_of_append (List.append_assoc _ _ _)

/-- Settles O40: the bytes a `READ` mixes are the ideal source's answer at that moment, each under the keystream of its position. -/
theorem readSeesSourceAsItIsNow : Obligations.ReadSeesSourceAsItIsNow := by
  refine ⟨fun s src rest h => step_source h, fun s x count bytes hs hx hc hsrc => ?_⟩
  have hr := srcRead_ofBytes s.width bytes (x.pos + x.hdr) (clamp x count)
  rw [← hsrc] at hr
  obtain ⟨t, ht, hsource, hev⟩ := exec_read_of_data hx hc hr
  have hpos := pos_add_length_le_posMax (hs.inst x hx) hc (List.length_take_le _ (bytes.drop (x.pos + x.hdr)))
  refine ⟨t, ht, hsource, ?_⟩
  rw [hev, List.cons_append, outBytes, outBytes_append, outBytes_mixAll (hs.inst x hx) hpos]
  exact List.append_nil _

/-! What a command puts on a port fits the word of the part (R52, R80, R121). -/

/-- A source request whose address and count are words (R52). -/
def RequestFits (w : Config.Width) (addr n : Nat) : Prop := addr < 2 ^ w.posw ∧ n < 2 ^ w.posw

/-- An event whose values are words, and whose error code is one other than 0 (R52, R80). -/
def Event.Fits (w : Config.Width) : Event → Prop
  | .rsp _ v => v < 2 ^ w.posw
  | .src addr n ans => RequestFits w addr n ∧ ∀ code, ans = .err code → 0 < code ∧ code < 2 ^ w.posw
  | .enc _ _ _ => True
  | .out _ => True

/-- From `s` to `t` only events that fit were added, and a wait on the source, if one began, is on a request that fits. -/
structure AddsFitting (s t : State) : Prop where
  events : ∃ es, t.events = s.events ++ es ∧ ∀ e ∈ es, e.Fits s.width
  pending : ∀ addr n, t.pending = some (.source addr n) → s.pending = none → RequestFits s.width addr n

/-- What adds events that fit, and begins no wait. -/
theorem AddsFitting.of_appended {s t : State} {es : List Event} (h : t.events = s.events ++ es) (hp : t.pending = s.pending)
    (hes : ∀ e ∈ es, e.Fits s.width) : AddsFitting s t :=
  ⟨⟨es, h, hes⟩, fun _ _ hq h0 => nomatch h0.symm.trans (hp.symm.trans hq)⟩

/-- Cipher requests and data bytes fit: they carry no position-sized value. -/
theorem crossBlock_fits (w : Config.Width) (E : Cipher) (x : Instance) : ∀ e ∈ (crossBlock E x).2, e.Fits w := by
  rw [crossBlock]
  split
  · simp [Event.Fits]
  · simp

theorem mixAll_fits (w : Config.Width) (E : Cipher) (x : Instance) (data : List Byte) :
    ∀ e ∈ (mixAll E x data).2, e.Fits w := by
  induction data generalizing x with
  | nil => simp [mixAll]
  | cons b bs ih =>
    intro e he
    simp only [mixAll, byteMix_events, List.mem_append, List.mem_singleton] at he
    obtain (hcross | rfl) | hrest := he
    · exact crossBlock_fits w E x e hcross
    · trivial
    · exact ih _ e hrest

theorem respond_addsFitting {s : State} (st : Status) {v : Nat} (hv : v ≤ s.width.posMax) : AddsFitting s (respond st v s) :=
  .of_appended rfl rfl (by simpa [Event.Fits] using hv.trans_lt (posMax_lt s.width))

theorem takeFault_addsFitting (s : State) (st : Status) : AddsFitting s (takeFault st 0 s) :=
  respond_addsFitting st (Nat.zero_le _)

/-- A command that makes the configured check fits if its body does. -/
theorem whenConfigured_addsFitting {s : State} {body : Instance → State} (h : ∀ x, s.inst = some x → AddsFitting s (body x)) :
    AddsFitting s (whenConfigured s body) := by
  cases hx : s.inst with
  | none => rw [whenConfigured_none hx]; exact takeFault_addsFitting s _
  | some x => rw [whenConfigured_some hx]; exact h x hx

/-- A position set responds with a legal position (R110). -/
theorem setPosition_addsFitting (s : State) (x : Instance) (t : Int) : AddsFitting s (setPosition Config.E x t s) := by
  by_cases h : 0 ≤ t ∧ t ≤ (s.width.posMax : Int)
  · have ht : t.toNat < 2 ^ s.width.posw := (Int.toNat_le.mpr h.2).trans_lt (posMax_lt s.width)
    rw [setPosition_legal h]
    exact .of_appended (List.append_assoc _ _ _) rfl (by simpa [Event.Fits] using ht)
  · rw [setPosition_illegal h]
    exact takeFault_addsFitting s _

theorem initWith_addsFitting (s : State) (key iv : Bytes16) (hdr srclen : Nat) :
    AddsFitting s (initWith Config.E key iv hdr srclen s) := by
  unfold initWith
  split
  · exact takeFault_addsFitting s _
  · split
    · exact .of_appended (List.append_assoc _ _ _) rfl (by simp [Event.Fits, loadInstance, placeAt])
    · exact takeFault_addsFitting s _

/-- The request of a `READ` lies below `SRCLEN`, which is a word (R33, R57). -/
theorem read_requestFits {E : Cipher} {w : Config.Width} {x : Instance} (h : x.Inv E w) {count : Nat} (hc : clamp x count ≠ 0) :
    RequestFits w (physAddr x x.pos) (clamp x count) := by
  have hsum := physAddr_add_clamp_le h.hdr_le hc
  have hlt := h.srclen_le.trans_lt (posMax_lt w)
  exact ⟨by omega, by omega⟩

/-- A `READ` after a request that fits: the source's error code is a word, and the bytes are no more than were asked for. -/
theorem readAnswered_addsFitting {s : State} {x : Instance} {n : Nat} (hreq : RequestFits s.width (physAddr x x.pos) n)
    (src : Source) {a : Option SrcAnswer} (hcode : ∀ code, a = some (.err code) → 0 < code ∧ code < 2 ^ s.width.posw)
    (hdata : ∀ data, a = some (.ok data) → data.length ≤ n) :
    AddsFitting s (readAnswered Config.E x n { s with source := src } a) := by
  match a with
  | none =>
    refine ⟨⟨[], (List.append_nil _).symm, fun _ he => nomatch he⟩, fun addr m hq _ => ?_⟩
    cases hq
    exact hreq
  | some (.err code) =>
    obtain ⟨h0, hlt⟩ := hcode code rfl
    refine .of_appended (List.append_assoc _ _ _) rfl ?_
    simp [Event.Fits, hreq, h0, hlt]
  | some (.ok data) =>
    have hlt : data.length < 2 ^ s.width.posw := (hdata data rfl).trans_lt hreq.2
    refine .of_appended (List.append_assoc _ _ _) rfl fun e he => ?_
    simp only [List.cons_append, List.mem_cons, List.mem_append, List.not_mem_nil, or_false] at he
    obtain rfl | hmix | rfl := he
    · exact ⟨hreq, fun _ hc => nomatch hc⟩
    · exact mixAll_fits _ _ _ _ e hmix
    · exact hlt

theorem readWith_addsFitting {s : State} (hs : s.Inv) (count : Nat) : AddsFitting s (readWith Config.E count s) :=
  whenConfigured_addsFitting fun x hx => by
    rw [readInstance]
    split
    · exact respond_addsFitting _ (Nat.zero_le _)
    · rename_i hc
      exact readAnswered_addsFitting (read_requestFits (hs.inst x hx) hc) _ (fun _ => srcRead_code_range) fun _ => srcRead_data_le

/-- Every command from a good state adds only what fits. -/
theorem exec_addsFitting {s : State} (hs : s.Inv) (i : Instr) : ∃ t, exec i s = .next t ∧ AddsFitting s t := by
  have hlen : ∀ x, s.inst = some x → len x ≤ s.width.posMax := fun x hx =>
    (Nat.sub_le _ _).trans (hs.inst x hx).srclen_le
  cases i with
  | init key iv hdr srclen => exact ⟨_, rfl, initWith_addsFitting s key iv hdr srclen⟩
  | release => exact ⟨_, rfl, whenConfigured_addsFitting fun _ _ => .of_appended rfl rfl (by simp [Event.Fits])⟩
  | getlen => exact ⟨_, rfl, whenConfigured_addsFitting fun x hx => respond_addsFitting _ (hlen x hx)⟩
  | getpos => exact ⟨_, rfl, whenConfigured_addsFitting fun x hx => respond_addsFitting _ (hs.inst x hx).pos_le⟩
  | setpos p => exact ⟨_, rfl, whenConfigured_addsFitting fun x _ => setPosition_addsFitting s x p⟩
  | seekBegin off => exact ⟨_, rfl, whenConfigured_addsFitting fun x _ => setPosition_addsFitting s x _⟩
  | seekCur off => exact ⟨_, rfl, whenConfigured_addsFitting fun x _ => setPosition_addsFitting s x _⟩
  | seekEnd off => exact ⟨_, rfl, whenConfigured_addsFitting fun x _ => setPosition_addsFitting s x _⟩
  | read count => exact ⟨_, rfl, readWith_addsFitting hs count⟩
  | write count => exact ⟨_, rfl, takeFault_addsFitting s _⟩
  | setlen length => exact ⟨_, rfl, takeFault_addsFitting s _⟩
  | flush => exact ⟨_, rfl, takeFault_addsFitting s _⟩

/-- Settles O60, command by command: lengths and positions are at most `POS_MAX` by the invariant, a request lies below `SRCLEN`,
and the source keeps to the contract. -/
theorem portValuesFitTheWord : Obligations.PortValuesFitTheWord := by
  intro i s t hs hexec
  obtain ⟨u, hu, ⟨es, hev, hfit⟩, hpending⟩ := exec_addsFitting hs i
  cases hu.symm.trans hexec
  rw [newEvents_of_append hev]
  refine ⟨fun st v he => hfit _ he, fun addr n ans he => ?_, hpending⟩
  obtain ⟨⟨haddr, hn⟩, hcode⟩ := hfit _ he
  exact ⟨haddr, hn, hcode⟩

end Sys2Proof.Machine

/-! What the proofs of the statements about the encoding add to the laws: the opcode map both ways, what a decoded byte string is,
and the operands of a frame both ways (30_encoding.md). -/

namespace Sys2Proof.Machine

/-! The opcode map (R75, R76). -/

theorem mem_of_lookupOp {op : Byte} {c : Cmd} {table : List (Byte × Cmd)} (h : lookupOp op table = some c) : (op, c) ∈ table := by
  induction table with
  | nil => cases h
  | cons r table ih =>
    rw [lookupOp] at h
    split at h
    · rename_i hr; cases h; subst hr; exact List.mem_cons_self
    · exact .tail _ (ih h)

@[simp] theorem ofOp_op (c : Cmd) : Cmd.ofOp c.op = some c := by cases c <;> rfl

/-- The map and its inverse agree: no byte but its own selects a command (R75). -/
theorem ofOp_eq_some_iff {op : Byte} {c : Cmd} : Cmd.ofOp op = some c ↔ op = c.op := by
  refine ⟨fun h => ?_, fun h => h ▸ ofOp_op c⟩
  have rows : ∀ r ∈ opcodeTable, r.1 = r.2.op := by decide
  exact rows _ (mem_of_lookupOp h)

theorem lookupOp_eq_none_iff {op : Byte} {table : List (Byte × Cmd)} :
    lookupOp op table = none ↔ op ∉ table.map Prod.fst := by
  induction table with
  | nil => simp [lookupOp]
  | cons r table ih =>
    rw [lookupOp, List.map_cons, List.mem_cons, not_or, ← ih]
    split
    · rename_i hr; simp [hr]
    · rename_i hr; simp [Ne.symm hr]

/-- The reserved bytes are those the map does not list (R76). -/
theorem ofOp_eq_none_iff {op : Byte} : Cmd.ofOp op = none ↔ op ∉ opcodeTable.map Prod.fst := lookupOp_eq_none_iff

theorem ne_op_of_reserved {op : Byte} (h : Cmd.ofOp op = none) (c : Cmd) : op ≠ c.op := by
  rintro rfl
  rw [ofOp_op] at h
  cases h

theorem framelen_op (w : Config.Width) (c : Cmd) : framelen w c.op = c.format.length w := by
  rw [framelen, ofOp_op]

theorem framelen_of_reserved {w : Config.Width} {op : Byte} (h : Cmd.ofOp op = none) : framelen w op = 1 := by
  rw [framelen, h]

/-! Decoding (R70 to R76). -/

/-- A byte string decodes to a command where it is a whole frame with the command's opcode byte, and a rest (R71, R74, R75). -/
theorem decode_eq_ok_iff {w : Config.Width} {bs rest : List Byte} {i : Instr} :
    decode w bs = .ok (i, rest) ↔
      ∃ c ops, bs = c.op :: ops ++ rest ∧ (c.op :: ops).length = c.format.length w ∧ i = assemble w c (c.op :: ops) := by
  constructor
  · intro h
    cases bs with
    | nil => cases h
    | cons op l =>
      rw [decode] at h
      split at h
      · cases h
      · rename_i hlen
        split at h
        · cases h
        · rename_i c hc
          obtain rfl := ofOp_eq_some_iff.mp hc
          obtain ⟨k, hk⟩ := Nat.exists_eq_add_of_le' (framelen_pos w c.op)
          rw [hk] at h hlen
          cases h
          refine ⟨c, l.take k, by simp, ?_, by simp⟩
          rw [← framelen_op, hk, List.length_cons, List.length_take]
          rw [List.length_cons] at hlen
          omega
  · rintro ⟨c, ops, rfl, hlen, rfl⟩
    rw [← framelen_op] at hlen
    have hle : ¬ (c.op :: ops ++ rest).length < framelen w c.op := by rw [List.length_append]; omega
    rw [List.cons_append] at hle ⊢
    simp only [decode, if_neg hle, ofOp_op]
    rw [← List.cons_append, List.take_left' hlen, List.drop_left' hlen]

/-- A reserved opcode byte is a frame of its own, and decodes to its rejection by name (R76). -/
theorem decode_reserved {op : Byte} (h : Cmd.ofOp op = none) (w : Config.Width) (rest : List Byte) :
    decode w (op :: rest) = .error (.reserved op) := by
  have hle : ¬ (op :: rest).length < framelen w op := by rw [framelen_of_reserved h, List.length_cons]; omega
  simp only [decode, if_neg hle, h]

/-! The operands of a frame, assembled and written out (R71, R73). -/

theorem posw_pred_succ (w : Config.Width) : w.posw - 1 + 1 = w.posw := by
  have h := w.one_le
  unfold Config.Width.posw
  omega

theorem frameU_eq {w : Config.Width} {f : List Byte} {start v : Nat} (hf : (f.drop start).take w.pb = leBytes w.pb v)
    (hv : fitsUnsigned w v = true) : frameU w f start = v := by
  rw [frameU, hf, leVal_leBytes, ← pow_posw, Nat.mod_eq_of_lt (of_decide_eq_true hv)]

theorem frameO_eq {w : Config.Width} {f : List Byte} {start : Nat} {off : Int}
    (hf : (f.drop start).take w.pb = leBytes w.pb (twos w.posw off)) (hoff : fitsSigned w off = true) :
    frameO w f start = off := by
  rw [frameO, frameU_eq hf (decide_eq_true (twos_lt _ _)), ← posw_pred_succ w]
  exact sext_twos (of_decide_eq_true hoff)

theorem frameU_fits (w : Config.Width) (f : List Byte) (start : Nat) : fitsUnsigned w (frameU w f start) = true := by
  refine decide_eq_true ((leVal_lt _).trans_le ?_)
  rw [pow_posw]
  exact Nat.pow_le_pow_right (by omega) (List.length_take_le _ _)

theorem frameO_fits (w : Config.Width) (f : List Byte) (start : Nat) : fitsSigned w (frameO w f start) = true := by
  have h : frameU w f start < 2 ^ (w.posw - 1 + 1) := by
    rw [posw_pred_succ]; exact of_decide_eq_true (frameU_fits w f start)
  have hr := sext_range h
  rw [posw_pred_succ] at hr
  exact decide_eq_true hr

theorem leBytes_frameU {w : Config.Width} {f : List Byte} {start : Nat} (h : start + w.pb ≤ f.length) :
    leBytes w.pb (frameU w f start) = (f.drop start).take w.pb := by
  have hlen : ((f.drop start).take w.pb).length = w.pb := by rw [List.length_take, List.length_drop]; omega
  have hle := leBytes_leVal ((f.drop start).take w.pb)
  rwa [hlen] at hle

theorem leBytes_frameO {w : Config.Width} {f : List Byte} {start : Nat} (h : start + w.pb ≤ f.length) :
    leBytes w.pb (twos w.posw (frameO w f start)) = (f.drop start).take w.pb := by
  have ht : twos w.posw (frameO w f start) = frameU w f start := by
    have hu := of_decide_eq_true (frameU_fits w f start)
    rw [← posw_pred_succ w] at hu
    have := twos_sext hu
    rwa [posw_pred_succ] at this
  rw [ht, leBytes_frameU h]

theorem frameBytes16_toList {f : List Byte} {start : Nat} (h : start + 16 ≤ f.length) :
    (frameBytes16 f start).toList = (f.drop start).take 16 := by
  refine List.ext_getElem ?_ fun j hj _ => ?_
  · rw [Vector.length_toList, BLK_eq, List.length_take, List.length_drop]; omega
  · have hj' : start + j < f.length := by rw [Vector.length_toList, BLK_eq] at hj; omega
    simp [frameBytes16, hj']

theorem frameBytes16_eq {f : List Byte} {start : Nat} {B : Bytes16} (h : start + 16 ≤ f.length)
    (hf : (f.drop start).take 16 = B.toList) : frameBytes16 f start = B :=
  bytes16_ext ((frameBytes16_toList h).trans hf)

/-! Commands and frames, both ways. -/

/-- The frame of a command has the length of its format (R71). -/
theorem encode_length (w : Config.Width) (i : Instr) : (encode w i).length = i.cmd.format.length w := by
  rw [← framelen_op]
  cases i with
  | init key iv hdr srclen => exact (Laws.FrameLength.init key iv hdr srclen).1 w
  | release => exact Laws.FrameLength.release.1 w
  | getlen => exact Laws.FrameLength.getlen.1 w
  | getpos => exact Laws.FrameLength.getpos.1 w
  | setpos p => exact (Laws.FrameLength.setpos p).1 w
  | seekBegin off => exact (Laws.FrameLength.seekBegin off).1 w
  | seekCur off => exact (Laws.FrameLength.seekCur off).1 w
  | seekEnd off => exact (Laws.FrameLength.seekEnd off).1 w
  | read count => exact (Laws.FrameLength.read count).1 w
  | write count => exact (Laws.FrameLength.write count).1 w
  | setlen length => exact (Laws.FrameLength.setlen length).1 w
  | flush => exact Laws.FrameLength.flush.1 w

/-- The one operand of a frame in format U or O stands right behind its opcode byte (R71). -/
theorem take_drop_one_operand (op : Byte) (k v : Nat) : ((op :: leBytes k v).drop 1).take k = leBytes k v := by
  rw [List.drop_one, List.tail_cons, List.take_of_length_le (leBytes_length k v).le]

/-- Where the four operands of `INIT` stand in its frame (R71). -/
theorem assemble_encode_init {w : Config.Width} {hdr srclen : Nat} (key iv : Bytes16) (hh : fitsUnsigned w hdr = true)
    (hs : fitsUnsigned w srclen = true) :
    assemble w .init (encode w (.init key iv hdr srclen)) = .init key iv hdr srclen := by
  have hlen : (encode w (.init key iv hdr srclen)).length = 1 + 16 + 16 + w.pb + w.pb := encode_length w _
  have hkey : frameBytes16 (encode w (.init key iv hdr srclen)) 1 = key :=
    frameBytes16_eq (by omega) (by simp [encode, encodeOperands])
  have hiv : frameBytes16 (encode w (.init key iv hdr srclen)) 17 = iv :=
    frameBytes16_eq (by omega) (by simp [encode, encodeOperands])
  have hpre : ((0x01 : Byte) :: (key.toList ++ iv.toList)).length = 33 := by simp [BLK_eq]
  have hframe : encode w (.init key iv hdr srclen) =
      (0x01 :: (key.toList ++ iv.toList)) ++ leBytes w.pb hdr ++ leBytes w.pb srclen := rfl
  have hhdr : frameU w (encode w (.init key iv hdr srclen)) 33 = hdr :=
    frameU_eq (by rw [hframe, List.append_assoc, List.drop_left' hpre, List.take_left' (leBytes_length _ _)]) hh
  have hsrclen : frameU w (encode w (.init key iv hdr srclen)) (33 + w.pb) = srclen :=
    frameU_eq (by
      rw [hframe, List.drop_left' (by rw [List.length_append, hpre, leBytes_length]),
        List.take_of_length_le (leBytes_length _ _).le]) hs
  rw [assemble, hkey, hiv, hhdr, hsrclen]

/-- Operand assembly undoes the encoding of a well-formed command (R73). -/
theorem assemble_encode {w : Config.Width} {i : Instr} (h : i.wellFormed w = true) : assemble w i.cmd (encode w i) = i := by
  cases i with
  | init key iv hdr srclen =>
    obtain ⟨hh, hs⟩ := (Bool.and_eq_true_iff ..).mp h
    exact assemble_encode_init key iv hh hs
  | release => rfl
  | getlen => rfl
  | getpos => rfl
  | setpos p => exact congrArg Instr.setpos (frameU_eq (take_drop_one_operand _ _ _) h)
  | seekBegin off => exact congrArg Instr.seekBegin (frameO_eq (take_drop_one_operand _ _ _) h)
  | seekCur off => exact congrArg Instr.seekCur (frameO_eq (take_drop_one_operand _ _ _) h)
  | seekEnd off => exact congrArg Instr.seekEnd (frameO_eq (take_drop_one_operand _ _ _) h)
  | read count => exact congrArg Instr.read (frameU_eq (take_drop_one_operand _ _ _) h)
  | write count => exact congrArg Instr.write (frameU_eq (take_drop_one_operand _ _ _) h)
  | setlen length => exact congrArg Instr.setlen (frameU_eq (take_drop_one_operand _ _ _) h)
  | flush => rfl

/-- Settles O1: the frame of a command is a whole frame with its opcode byte, and operand assembly undoes its encoding. -/
theorem decodeUndoesEncode : Obligations.DecodeUndoesEncode := fun w i _ h =>
  decode_eq_ok_iff.mpr ⟨i.cmd, encodeOperands w i, rfl, encode_length w i, (assemble_encode h).symm⟩

theorem assemble_wellFormed (w : Config.Width) (c : Cmd) (f : List Byte) : (assemble w c f).wellFormed w = true := by
  cases c with
  | init => exact (Bool.and_eq_true_iff ..).mpr ⟨frameU_fits w f 33, frameU_fits w f (33 + w.pb)⟩
  | release => rfl
  | getlen => rfl
  | getpos => rfl
  | setpos => exact frameU_fits w f 1
  | seekBegin => exact frameO_fits w f 1
  | seekCur => exact frameO_fits w f 1
  | seekEnd => exact frameO_fits w f 1
  | read => exact frameU_fits w f 1
  | write => exact frameU_fits w f 1
  | setlen => exact frameU_fits w f 1
  | flush => rfl

/-- Two neighbouring pieces of a frame. -/
theorem take_drop_append_drop {f : List Byte} (start k : Nat) : (f.drop start).take k ++ f.drop (start + k) = f.drop start := by
  rw [← List.drop_drop, List.take_append_drop]

/-- A whole frame in format N has no operand bytes. -/
theorem operand_none {op : Byte} {ops : List Byte} (h : (op :: ops).length = 1) : [] = ops :=
  (List.eq_nil_of_length_eq_zero (Nat.succ.inj h)).symm

/-- The operand bytes of a whole frame in format U are those of its one operand. -/
theorem operand_unsigned {w : Config.Width} {op : Byte} {ops : List Byte} (h : (op :: ops).length = 1 + w.pb) :
    leBytes w.pb (frameU w (op :: ops) 1) = ops := by
  rw [leBytes_frameU h.ge, List.drop_one, List.tail_cons, List.take_of_length_le]
  rw [List.length_cons] at h
  omega

/-- The operand bytes of a whole frame in format O are those of its one operand. -/
theorem operand_signed {w : Config.Width} {op : Byte} {ops : List Byte} (h : (op :: ops).length = 1 + w.pb) :
    leBytes w.pb (twos w.posw (frameO w (op :: ops) 1)) = ops := by
  rw [leBytes_frameO h.ge, ← leBytes_frameU h.ge, operand_unsigned h]

/-- The operand bytes of a whole frame in format I are those of its four operands, one after another. -/
theorem operands_init {w : Config.Width} {op : Byte} {ops : List Byte} (h : (op :: ops).length = 1 + 16 + 16 + w.pb + w.pb) :
    encodeOperands w (assemble w .init (op :: ops)) = ops := by
  have hlast : ((op :: ops).drop (33 + w.pb)).take w.pb = (op :: ops).drop (33 + w.pb) :=
    List.take_of_length_le (by rw [List.length_drop]; omega)
  rw [assemble, encodeOperands, frameBytes16_toList (by omega), frameBytes16_toList (by omega), leBytes_frameU (by omega),
    leBytes_frameU (by omega), hlast, List.append_assoc, List.append_assoc, take_drop_append_drop 33, take_drop_append_drop 17,
    take_drop_append_drop 1, List.drop_one, List.tail_cons]

/-- The encoding of what operand assembly makes of a whole frame is that frame. -/
theorem encode_assemble {w : Config.Width} {c : Cmd} {ops : List Byte} (h : (c.op :: ops).length = c.format.length w) :
    encode w (assemble w c (c.op :: ops)) = c.op :: ops := by
  cases c with
  | init => exact congrArg (List.cons _) (operands_init h)
  | release => exact congrArg (List.cons _) (operand_none h)
  | getlen => exact congrArg (List.cons _) (operand_none h)
  | getpos => exact congrArg (List.cons _) (operand_none h)
  | setpos => exact congrArg (List.cons _) (operand_unsigned h)
  | seekBegin => exact congrArg (List.cons _) (operand_signed h)
  | seekCur => exact congrArg (List.cons _) (operand_signed h)
  | seekEnd => exact congrArg (List.cons _) (operand_signed h)
  | read => exact congrArg (List.cons _) (operand_unsigned h)
  | write => exact congrArg (List.cons _) (operand_unsigned h)
  | setlen => exact congrArg (List.cons _) (operand_unsigned h)
  | flush => exact congrArg (List.cons _) (operand_none h)

/-- Settles O2: bytes that decode are a whole frame and a rest; encoding what was assembled from the frame gives it back, and
what is assembled fits its operands' width. -/
theorem encodeUndoesDecode : Obligations.EncodeUndoesDecode := by
  intro w bs rest i h
  obtain ⟨c, ops, rfl, hlen, rfl⟩ := decode_eq_ok_iff.mp h
  exact ⟨by rw [encode_assemble hlen], assemble_wellFormed w c _⟩

/-! Frames that arrive (R74). -/

theorem step_of_ready {s : State} (h : s.pending = none) : step s = stepReady s := by rw [step, h]

/-- A hardware reset of a block that waits on nothing takes only its `inst` (R180). -/
theorem hardwareReset_of_ready {s : State} (h : s.pending = none) : hardwareReset s = { s with inst := none } := by
  rw [hardwareReset, h]

theorem fetch_partial {w : Config.Width} {op : Byte} {bs : List Byte} (h : bs.length + 1 < framelen w op) :
    fetch w ((op :: bs).map .byte) = .waiting :=
  collect_short _ _ _ (Nat.lt_sub_of_add_lt h)

theorem fetch_partial_reset {w : Config.Width} {op : Byte} {bs : List Byte} (h : bs.length + 1 < framelen w op) (k : Nat)
    (rest : List PortInput) : fetch w ((op :: bs).map .byte ++ .reset k :: rest) = .reset rest :=
  collect_reset _ _ _ _ _ (Nat.lt_sub_of_add_lt h)

/-- The list of R74: `INIT`, the seven commands of one operand, and all other opcode bytes, the commands without operands and the
reserved ones. -/
theorem framelen_eq (w : Config.Width) (op : Byte) : framelen w op =
    if op = 0x01 then 1 + 32 + 2 * w.pb
    else if op ∈ [0x12, 0x20, 0x21, 0x22, 0x30, 0x40, (0x41 : Byte)] then 1 + w.pb
    else 1 := by
  cases h : Cmd.ofOp op with
  | some c =>
    obtain rfl := ofOp_eq_some_iff.mp h
    rw [framelen_op]
    cases c <;> simp [Cmd.op, Cmd.format, Format.length]
    omega
  | none =>
    have hne := ne_op_of_reserved h
    have hinit : op ≠ 0x01 := hne .init
    have hone : op ∉ [0x12, 0x20, 0x21, 0x22, 0x30, 0x40, (0x41 : Byte)] := by
      simpa using ⟨hne .setpos, hne .seekBegin, hne .seekCur, hne .seekEnd, hne .read, hne .write, hne .setlen⟩
    rw [framelen_of_reserved h, if_neg hinit, if_neg hone]

/-- Settles O6: the length by the opcode map, and the two inputs of a partial frame by what `fetch` makes of them. -/
theorem frameLengthIsTheOpcodes : Obligations.FrameLengthIsTheOpcodes := by
  refine ⟨framelen_eq, fun s op bs hp hlen hin => ?_, fun s op bs k rest hp hlen hin => ?_⟩
  · rw [step_of_ready hp, stepReady, hin, fetch_partial hlen]
  · rw [step_of_ready hp, stepReady, hin, fetch_partial_reset hlen]
    exact congrArg Host.Outcome.next (hardwareReset_of_ready (s := { s with input := rest }) hp)

/-- Settles O3: each frame, of the length its opcode byte decides, evaluates to its command. -/
theorem framesOfTheSpecDecode : Obligations.FramesOfTheSpecDecode :=
  ⟨by decide, by decide, by decide, by decide, by decide, by decide, by decide⟩

section
set_option maxRecDepth 20000

/-- The 256 opcode bytes, counted (R76). -/
theorem reserved_count : ((List.range 256).filter fun n => (Cmd.ofOp (BitVec.ofNat 8 n)).isNone).length = 244 := by decide

end

/-- Settles O4: the reserved bytes are those the opcode map does not list, and one of them decodes to its rejection. -/
theorem reservedOpcodesAreTheOthers : Obligations.ReservedOpcodesAreTheOthers :=
  ⟨fun _ => ofOp_eq_none_iff, reserved_count, fun w _ rest h => decode_reserved h w rest⟩

/-- A step of a ready block on a complete frame runs its command, and what follows may come between (R70, R172). -/
theorem step_of_decode {s : State} {bs : List Byte} {i : Instr} {rest : List PortInput} (hp : s.pending = none)
    (hdec : decode s.width bs = .ok (i, [])) (hin : s.input = bs.map .byte ++ rest) :
    step s = interruptible { s with input := rest } (exec i { s with input := rest }) := by
  have hrun : runFrame bs { s with input := rest } = exec i { s with input := rest } := runFrame_ok hdec
  rw [step_of_ready hp, stepReady, hin, fetch_frame hdec, ← hrun]

/-- Settles O7: `fetch` gives the frame, which runs its command, and what follows keeps it from its response in no way. -/
theorem stepRunsDecodedCommand : Obligations.StepRunsDecodedCommand := by
  intro s t bs i rest hp hdec hin hexec hrest
  rw [step_of_decode hp hdec hin, hexec]
  exact interruptible_undisturbed hrest

/-! The pseudo-commands (R78). -/

theorem exec_setpos_eq_seekBegin (p : Nat) (s : State) : exec (.setpos p) s = exec (.seekBegin p) s := rfl

/-- A `SEEK.BEGIN` out of range faults, whatever the sign (R116). -/
theorem exec_seekBegin_illegal {s : State} {x : Instance} {off : Int} (hx : s.inst = some x)
    (h : ¬ (0 ≤ off ∧ off ≤ (s.width.posMax : Int))) : exec (.seekBegin off) s = .next (faulted .positionRange 0 s) := by
  have hseek : exec (.seekBegin off) s = .next (whenConfigured s fun x => setPosition Config.E x off s) := rfl
  rw [hseek, whenConfigured_some hx, setPosition_illegal h]
  rfl

theorem sext_neg {n w : Nat} (h : 2 ^ (n - 1) ≤ w) (hw : w < 2 ^ n) : sext n w < 0 := by
  have hcast : ((2 ^ n : Nat) : Int) = 2 ^ n := by push_cast; rfl
  rw [sext, if_neg (Nat.not_lt.mpr h)]
  omega

/-- Settles O8: the expansions are the table's; `SETPOS` and `SEEK.BEGIN` are one position set, whose target is out of range above
where the pattern's top bit is read unsigned, and below where it is read signed. -/
theorem pseudoCommandsExpand : Obligations.PseudoCommandsExpand := by
  refine ⟨fun _ => ⟨rfl, rfl, rfl, rfl⟩, rfl, rfl, fun s p _ => exec_setpos_eq_seekBegin p s, fun s x w hx hle hlt => ⟨?_, ?_⟩⟩
  · have hmax := posMax_succ s.width
    rw [exec_setpos_eq_seekBegin, exec_seekBegin_illegal hx (by omega)]
  · have hneg := sext_neg hle hlt
    rw [exec_seekBegin_illegal hx (by omega)]

section
set_option maxRecDepth 20000

/-- Settles O9: each line evaluates to its command; the key and the IV are the sixteen bytes of their values. -/
theorem textLinesReadAsCommands : Obligations.TextLinesReadAsCommands :=
  ⟨⟨bytes16 0x0f0e0d0c0b0a09080706050403020100, bytes16 0xff, val_bytes16 _, val_bytes16 _, by decide⟩,
    by decide, by decide, by decide, by decide, by decide, by decide⟩

end

/-- Settles O10: the value's bytes are `PB` little-endian ones, which hold every value of `POSW` bits; the codes are the list's. -/
theorem responseFrameCarriesStatusAndValue : Obligations.ResponseFrameCarriesStatusAndValue := by
  refine ⟨fun w st v hv => ⟨leBytes w.pb v, rfl, leBytes_length _ _, ?_⟩, rfl, rfl, rfl, rfl, rfl, rfl, rfl, rfl⟩
  rw [leVal_leBytes, ← pow_posw, Nat.mod_eq_of_lt hv]

end Sys2Proof.Machine

/-! The counter (R90 to R96): `Inc` byte by byte, and `Reset` as the additive action that `Inc` generates. -/

namespace Sys2Proof.Machine

/-- A byte `0xFF` overflows: the scan goes on (R90). -/
theorem incBytes_cons_ones (bs : List Byte) : incBytes (0xFF :: bs) = 0x00 :: incBytes bs := rfl

/-- Any other byte ends the scan (R90). -/
theorem incBytes_cons_of_ne {b : Byte} (h : b ≠ 0xFF) (bs : List Byte) : incBytes (b :: bs) = (b + 1) :: bs := by
  have hb : b + 1 ≠ 0 := by bv_omega
  rw [incBytes, if_neg hb]

/-- The scan adds one to exactly the bytes all of whose predecessors are `0xFF` (R90). -/
theorem incBytes_getElem (l : List Byte) (j : Nat) (h : j < (incBytes l).length) (hl : j < l.length) :
    (incBytes l)[j] = if ∀ b ∈ l.take j, b = 0xFF then l[j] + 1 else l[j] := by
  induction l generalizing j with
  | nil => simp at hl
  | cons b bs ih =>
    by_cases hb : b = 0xFF
    · subst hb
      cases j with
      | zero => exact (if_pos (by simp)).symm
      | succ j =>
        have hj : j < bs.length := Nat.lt_of_succ_lt_succ hl
        simpa only [incBytes_cons_ones, List.getElem_cons_succ, List.take_succ_cons, List.forall_mem_cons, true_and]
          using ih j (by rwa [incBytes_length]) hj
    · cases j with
      | zero => simp [incBytes_cons_of_ne hb]
      | succ j => simp only [incBytes_cons_of_ne hb, List.getElem_cons_succ, List.take_succ_cons, List.forall_mem_cons,
          hb, false_and, if_false]

theorem forall_mem_take_iff (B : Bytes16) (j : Fin 16) :
    (∀ b ∈ B.toList.take j, b = 0xFF) ↔ ∀ i : Fin 16, i < j → B[i] = 0xFF := by
  simp only [List.mem_take_iff_getElem, forall_exists_index]
  constructor
  · intro h i hij
    exact h _ i.val (by simp; omega) rfl
  · rintro h _ i hi rfl
    have hij : i < j.val := by omega
    exact h ⟨i, by omega⟩ hij

/-- `Inc` adds one to exactly the bytes all of whose predecessors are `0xFF` (R90). -/
theorem counterInc_getElem (B : Bytes16) (j : Fin 16) :
    (counterInc B)[j] = if ∀ i : Fin 16, i < j → B[i] = 0xFF then B[j] + 1 else B[j] := by
  have hlen : j.val < B.toList.length := by simp
  have h := incBytes_getElem B.toList j (by rwa [incBytes_length]) hlen
  simp only [forall_mem_take_iff] at h
  exact h

/-- Settles O12: up to byte `k` every predecessor of a byte is `0xFF`, above it byte `k` is a predecessor that is not. -/
theorem incCarriesOverLeadingOnes : Obligations.IncCarriesOverLeadingOnes := by
  have hwrap : (0xFF : Byte) + 1 = 0x00 := by decide
  refine ⟨fun B k hones hk j => ?_, fun B hones j => ?_⟩
  · rw [counterInc_getElem]
    rcases lt_trichotomy j k with hjk | rfl | hkj
    · rw [if_pos fun i hi => hones i (hi.trans hjk), if_pos hjk, hones j hjk, hwrap]
    · rw [if_pos hones, if_neg (lt_irrefl j), if_pos rfl]
    · rw [if_neg fun h => hk (h k hkj), if_neg hkj.asymm, if_neg hkj.ne']
  · rw [counterInc_getElem, if_pos fun i _ => hones i, hones j, hwrap]

theorem val_counterInc (c : Bytes16) : val (counterInc c) = (val c + 1) % 2 ^ 128 := by
  have h := leVal_incBytes c.toList
  rw [Vector.length_toList] at h
  exact h

/-- One increment is an addition of one (R91, R94). -/
theorem counterInc_eq_counterReset (c : Bytes16) : counterInc c = counterReset c 1 :=
  val_injective (by rw [val_counterInc, val_counterReset])

/-- Law (c) of R96, from which those of `Inc` follow. -/
theorem counterReset_counterReset (iv : Bytes16) (a b : Nat) :
    counterReset (counterReset iv a) b = counterReset iv (a + b) :=
  val_injective (by rw [val_counterReset, val_counterReset, val_counterReset, Nat.mod_add_mod, Nat.add_assoc])

theorem counterInc_counterReset (iv : Bytes16) (n : Nat) : counterInc (counterReset iv n) = counterReset iv (n + 1) := by
  rw [counterInc_eq_counterReset, counterReset_counterReset]

theorem counterReset_counterInc (iv : Bytes16) (n : Nat) : counterReset (counterInc iv) n = counterReset iv (n + 1) := by
  rw [counterInc_eq_counterReset, counterReset_counterReset, Nat.add_comm]

/-- `Reset` sees `n` modulo `2^128` only (R94, R96). -/
theorem counterReset_mod (iv : Bytes16) (n : Nat) : counterReset iv (n % 2 ^ 128) = counterReset iv n :=
  val_injective (by rw [val_counterReset, val_counterReset, Nat.add_mod_mod])

theorem counterReset_period (iv : Bytes16) : counterReset iv (2 ^ 128) = iv := by
  rw [← counterReset_mod, Nat.mod_self, counterReset_zero]

theorem counterResetIter_eq (iv : Bytes16) (n : Nat) : counterResetIter iv n = counterReset iv n := by
  induction n with
  | zero => rw [counterResetIter, counterReset_zero]
  | succ n ih => rw [counterResetIter, ih, counterInc_counterReset]

theorem counterInc_iterate (n : Nat) (c : Bytes16) : counterInc^[n] c = counterReset c n := by
  induction n with
  | zero => rw [Function.iterate_zero_apply, counterReset_zero]
  | succ n ih => rw [Function.iterate_succ_apply', ih, counterInc_counterReset]

/-- `Inc` is undone by the `2^128 - 1` increments that complete the period (R91). -/
theorem counterInc_bijective : Function.Bijective counterInc := by
  have hperiod : 2 ^ 128 - 1 + 1 = 2 ^ 128 := Nat.sub_add_cancel Nat.one_le_two_pow
  refine Function.bijective_iff_has_inverse.mpr ⟨fun c => counterReset c (2 ^ 128 - 1), fun c => ?_, fun c => ?_⟩
  · exact (counterReset_counterInc c _).trans (by rw [hperiod, counterReset_period])
  · rw [counterInc_counterReset, hperiod, counterReset_period]

/-- Settles O13: the scan adds one, and `2^128` increments are a `Reset` over its whole period. -/
theorem incAddsOneModulo : Obligations.IncAddsOneModulo :=
  ⟨val_counterInc, counterInc_bijective, fun n hn c => by rw [counterInc_iterate, hn, counterReset_period]⟩

theorem val_addLE (iv : Bytes16) (n : Nat) : val (addLE iv n) = (val iv + n) % 2 ^ 128 := by
  have h := leVal_addBytes iv.toList n 0
  rw [Vector.length_toList] at h
  exact h

/-- The byte-wise loop of R94 adds as `Reset` does. -/
theorem addLE_eq_counterReset (iv : Bytes16) (n : Nat) : addLE iv n = counterReset iv n :=
  val_injective (by rw [val_addLE, val_counterReset])

/-- Settles O14: the iteration by induction on `n`, the byte-wise loop by its value and the period of `Reset`. -/
theorem resetIsRepeatedIncAndAddition : Obligations.ResetIsRepeatedIncAndAddition :=
  fun iv n => ⟨(counterResetIter_eq iv n).symm, rfl, by rw [addLE_eq_counterReset, counterReset_mod]⟩

/-- Law (e) of R96: distinct block indices below `2^128` give distinct counters. -/
theorem counterReset_injective_below {iv : Bytes16} {m n : Nat} (hm : m < 2 ^ 128) (hn : n < 2 ^ 128)
    (h : counterReset iv m = counterReset iv n) : m = n := by
  have hval : (val iv + m) % 2 ^ 128 = (val iv + n) % 2 ^ 128 := by rw [← val_counterReset, h, val_counterReset]
  have hmod : m ≡ n [MOD 2 ^ 128] := Nat.ModEq.add_left_cancel' (val iv) hval
  exact hmod.eq_of_lt_of_lt hm hn

/-- Settles O15: laws (b) to (d) are those of an additive action of period `2^128`, law (e) cancels `val(iv)`. -/
theorem resetLaws : Obligations.ResetLaws :=
  ⟨counterReset_zero, fun iv n => (counterInc_counterReset iv n).symm, counterReset_counterReset,
    fun iv n => by rw [← counterReset_mod, Nat.add_mod_right, counterReset_mod],
    fun _ _ _ hm hn h => counterReset_injective_below hm hn h⟩

end Sys2Proof.Machine

/-! The keystream cache and the cipher port (41_keystream.md): which block the cache holds, how often the cipher is asked and on
what, and what a cipher engine that never answers leaves. -/

namespace Sys2Proof.Machine

open Config (Cipher)

/-! The cache (R31, R32, R104). -/

/-- The counter of a good `Instance` is that of the block that `KSBLK` names (R31, R34). -/
theorem Instance.Inv.ctr_eq {E : Cipher} {w : Config.Width} {x : Instance} (h : x.Inv E w) :
    x.ctr = counterReset x.iv (keystreamBlock x) := by
  apply val_injective
  rw [h.counter, val_counterReset, Nat.add_sub_assoc (lag_le_blockIndex x)]
  rfl

/-- The cache of a good `Instance` holds the keystream of that block (R32). -/
theorem Instance.Inv.ks_eq {E : Cipher} {w : Config.Width} {x : Instance} (h : x.Inv E w) :
    x.ks = E x.key (counterReset x.iv (keystreamBlock x)) := by
  rw [h.keystream, h.ctr_eq]

/-- Settles O42: `KSBLK` is the block of `POS` less the lag. -/
theorem cacheHoldsTheBlockOfThePosition : Obligations.CacheHoldsTheBlockOfThePosition := by
  intro s x hs hx
  have hks := (hs.inst x hx).ks_eq
  exact ⟨fun hlag => by rwa [keystreamBlock, hlag] at hks, fun hlag => by rwa [keystreamBlock, hlag] at hks⟩

/-! What a `READ` obtains (R133, R137). -/

theorem obtained_of_clamp_eq_zero {x : Instance} {count : Nat} (h : clamp x count = 0) (s : State) : obtained x count s = [] :=
  if_pos h

/-- A `READ` that makes its request obtains the data of the answer, and nothing where the answer is an error or never comes. -/
theorem obtained_of_clamp_ne_zero {x : Instance} {count : Nat} (h : clamp x count ≠ 0) (s : State) :
    (srcRead s.width (x.pos + x.hdr) (clamp x count) s.source).1 = some (.ok (obtained x count s)) ∨
    obtained x count s = [] ∧
      ((srcRead s.width (x.pos + x.hdr) (clamp x count) s.source).1 = none ∨
        ∃ code, (srcRead s.width (x.pos + x.hdr) (clamp x count) s.source).1 = some (.err code)) := by
  rw [obtained, if_neg h]
  match (srcRead s.width (x.pos + x.hdr) (clamp x count) s.source).1 with
  | none => exact .inr ⟨rfl, .inl rfl⟩
  | some (.err code) => exact .inr ⟨rfl, .inr ⟨code, rfl⟩⟩
  | some (.ok _) => exact .inl rfl

/-! How many cipher requests a command makes (R103). -/

theorem encCount_append (l m : List Event) : encCount (l ++ m) = encCount l + encCount m := by
  induction l with
  | nil => simp [encCount]
  | cons e es ih =>
    cases e with
    | enc key block ks => simp only [List.cons_append, encCount, ih]; omega
    | out b => exact ih
    | src addr n a => exact ih
    | rsp st v => exact ih

/-- One byte of the mixer asks the cipher if it starts lagging (R102, R134). -/
theorem encCount_byteMix (E : Cipher) (x : Instance) (b : Byte) : encCount (byteMix E x b).2 = lag x := by
  rw [byteMix_events, encCount_append, crossBlock, lag_eq_ite_crosses]
  split <;> rfl

/-- The walk of a `READ` over positions `a .. b` asks `b / 16 - a / 16` times, and once more if it starts lagging (R103): each byte
that ends a block leaves a lag, which the next byte pays. -/
theorem encCount_mixAll_cons (E : Cipher) (x : Instance) (b : Byte) (bs : List Byte) :
    encCount (mixAll E x (b :: bs)).2 = (x.pos + bs.length) / 16 - x.pos / 16 + lag x := by
  induction bs generalizing x b with
  | nil =>
    rw [mixAll, encCount_append, encCount_byteMix]
    simp [mixAll, encCount]
  | cons c cs ih =>
    have hlag := lag_byteMix E x b
    rw [mixAll, encCount_append, encCount_byteMix, ih, byteMix_pos, crossBlock_pos, List.length_cons]
    split at hlag <;> omega

theorem encCount_respond (st : Status) (v : Nat) (s : State) : encCount (respond st v s).events = encCount s.events :=
  encCount_append s.events [.rsp st v]

/-- A command that makes the configured check asks as often as its body does, and not at all without an `Instance`. -/
theorem encCount_whenConfigured {s : State} {body : Instance → State} {due : Nat} (hnone : s.inst = none → due = 0)
    (hsome : ∀ x, s.inst = some x → encCount (body x).events = encCount s.events + due) :
    encCount (whenConfigured s body).events = encCount s.events + due := by
  cases hx : s.inst with
  | none => rw [whenConfigured_none hx, hnone hx]; exact encCount_respond _ 0 s
  | some x => rw [whenConfigured_some hx]; exact hsome x hx

/-- A position set to `t` asks as often as `SEEK.BEGIN t` is given: once if `t` is legal (R110). -/
theorem encCount_setPosition {s : State} {x : Instance} (hx : s.inst = some x) (E : Cipher) (t : Int) :
    encCount (setPosition E x t s).events = encCount s.events + requestsDue (.seekBegin t) s := by
  simp only [requestsDue, hx]
  split
  · rw [setPosition_legal ‹_›, encCount_respond, emit_events, encCount_append]
    rfl
  · rw [setPosition_illegal ‹_›]
    exact encCount_respond _ 0 s

/-- `INIT` asks once if it succeeds (R111). -/
theorem encCount_initWith (E : Cipher) (key iv : Bytes16) (hdr srclen : Nat) (s : State) :
    encCount (initWith E key iv hdr srclen s).events = encCount s.events + requestsDue (.init key iv hdr srclen) s := by
  rw [initWith, requestsDue.eq_def]
  cases s.inst with
  | some x => exact encCount_respond _ 0 s
  | none =>
    simp only [legalConfig, Bool.and_eq_true, decide_eq_true_eq]
    split
    · rw [encCount_respond, emit_events, encCount_append]
      rfl
    · exact encCount_respond _ 0 s

/-- A `READ` asks as often as its walk over the bytes obtained does (R135). -/
theorem encCount_readInstance (E : Cipher) (x : Instance) (count : Nat) (s : State) :
    encCount (readInstance E x count s).events = encCount s.events + encCount (mixAll E x (obtained x count s)).2 := by
  rw [readInstance]
  split
  · rw [obtained_of_clamp_eq_zero ‹_›]
    exact encCount_respond _ 0 s
  · obtain hr | ⟨hnil, hr | ⟨code, hr⟩⟩ := obtained_of_clamp_ne_zero ‹_› s <;>
      simp only [readFetch, physAddr, hr, readAnswered]
    · rw [encCount_respond, emit_events, encCount_append]
      rfl
    · rw [hnil]
      rfl
    · rw [hnil, takeFault, encCount_respond, emit_events, encCount_append]
      rfl

theorem encCount_mixAll_obtained {s : State} {x : Instance} (hx : s.inst = some x) (E : Cipher) (count : Nat) :
    encCount (mixAll E x (obtained x count s)).2 = requestsDue (.read count) s := by
  simp only [requestsDue, hx]
  cases obtained x count s with
  | nil => rfl
  | cons b bs => simp [encCount_mixAll_cons]

/-- Every command makes the cipher requests that R103 gives it. -/
theorem encCount_exec {i : Instr} {s t : State} (h : exec i s = .next t) :
    encCount t.events = encCount s.events + requestsDue i s := by
  cases i <;> cases h
  case init key iv hdr srclen => exact encCount_initWith Config.E key iv hdr srclen s
  case write => exact encCount_respond _ 0 s
  case setlen => exact encCount_respond _ 0 s
  case flush => exact encCount_respond _ 0 s
  -- what is left makes the configured check
  all_goals refine encCount_whenConfigured (fun hx => by simp only [requestsDue, hx]) fun x hx => ?_
  case release => exact encCount_respond _ 0 _
  case getlen => exact encCount_respond _ _ s
  case getpos => exact encCount_respond _ _ s
  case setpos p =>
    rw [encCount_setPosition hx]
    simp [requestsDue, hx]
  case seekBegin off => exact encCount_setPosition hx Config.E off
  case seekCur off =>
    rw [encCount_setPosition hx]
    simp only [requestsDue, hx, seekTarget]
  case seekEnd off =>
    rw [encCount_setPosition hx]
    simp only [requestsDue, hx, seekTarget]
  case read count => rw [encCount_readInstance, encCount_mixAll_obtained hx]

/-- The count of R103 holds from every state: a block that waits on a request runs no further command, and makes none. -/
theorem encCount_runCommands (is : List Instr) (s : State) :
    encCount (runCommands is s).events = encCount s.events + requestsDueAll is s := by
  induction is generalizing s with
  | nil => rfl
  | cons i is ih =>
    obtain ⟨t, ht, -⟩ := exec_cases i s
    cases hp : s.pending with
    | some q => simp only [runCommands, requestsDueAll, hp, reduceCtorEq, if_false, Nat.add_zero]
    | none =>
      simp only [runCommands, requestsDueAll, hp, ht, if_true]
      rw [ih, encCount_exec ht, Nat.add_assoc]

/-- Settles O41: the count over a sequence is the sum of what each command makes, by induction on the sequence. -/
theorem cipherRequestCount : Obligations.CipherRequestCount := fun is s _ => encCount_runCommands is s

/-! What the cipher is asked (R100, R105). -/

/-- A request of the walk is for the block of the position of one of its bytes. -/
theorem enc_mem_mixEvents {E : Cipher} {key iv key' block ks : Bytes16} {p : Nat} {ready : Bool} {data : List Byte}
    (h : Event.enc key' block ks ∈ mixEvents E key iv p ready data) :
    ∃ j < data.length, key' = key ∧ block = counterReset iv (blockIndex (p + j)) ∧ ks = E key' block := by
  induction data generalizing p ready with
  | nil => simp [mixEvents] at h
  | cons b bs ih =>
    simp only [mixEvents, List.mem_append, List.mem_cons, reduceCtorEq, false_or] at h
    obtain hfirst | hrest := h
    · split at hfirst
      · cases List.mem_singleton.mp hfirst
        exact ⟨0, Nat.succ_pos _, rfl, rfl, rfl⟩
      · simp at hfirst
    · obtain ⟨j, hj, hkey, hblock, hks⟩ := ih hrest
      exact ⟨j + 1, Nat.succ_lt_succ hj, hkey, by rw [hblock, Nat.add_assoc, Nat.add_comm 1 j], hks⟩

/-- A `READ` that asks the cipher obtained bytes, and asks in its walk over them. -/
theorem Reads.enc_mem {i : Instr} {s t : State} {key block ks : Bytes16} (h : Reads i s t)
    (hmem : Event.enc key block ks ∈ newEvents s t) :
    ∃ x count, i = .read count ∧ s.inst = some x ∧ clamp x count ≠ 0 ∧ (obtained x count s).length ≤ clamp x count ∧
      t.inst = some (mixAll Config.E x (obtained x count s)).1 ∧
      Event.enc key block ks ∈ (mixAll Config.E x (obtained x count s)).2 := by
  obtain ⟨x, count, hi, hx, hc, rfl⟩ := h
  obtain hr | ⟨-, hr | ⟨code, hr⟩⟩ := obtained_of_clamp_ne_zero hc s <;> rw [hr] at hmem ⊢
  · exact ⟨x, count, hi, hx, hc, srcRead_data_le hr, rfl, by simpa [newEvents, readAnswered] using hmem⟩
  · simp [newEvents, readAnswered] at hmem
  · simp [newEvents, readAnswered] at hmem

/-- Settles O43, by the cases of `exec`: `INIT` and a position set ask for the block of the position set, a `READ` for blocks of
the bytes it obtained, which lie below `LEN`. -/
theorem cipherSeesCountersOnly : Obligations.CipherSeesCountersOnly := by
  intro i s t key block ks hs hexec hmem
  obtain h | h | h | h | h := exec_next_cases hexec
  · obtain ⟨_, _, -, rfl⟩ := h
    simp [newEvents] at hmem
  · obtain ⟨_, _, _, _, rfl, -, -, -, y, rfl, rfl⟩ := h
    obtain ⟨rfl, rfl, rfl⟩ : _ ∧ _ ∧ _ := by simpa [newEvents] using hmem
    exact ⟨_, 0, rfl, Nat.zero_le _, rfl, rfl, rfl, fun _ => ⟨rfl, rfl, rfl⟩, fun _ hread => nomatch hread⟩
  · obtain ⟨_, -, -, rfl⟩ := h
    simp [newEvents] at hmem
  · obtain ⟨x, n, hset, -, hn, rfl⟩ := h
    obtain ⟨rfl, rfl, rfl⟩ : _ ∧ _ ∧ _ := by simpa [newEvents, repositioned] using hmem
    exact ⟨_, n, rfl, hn, rfl, rfl, rfl, fun _ => ⟨rfl, rfl, rfl⟩,
      fun _ hread => absurd hset (by simp [hread, Instr.cmd])⟩
  · obtain ⟨x, count, rfl, hx, hc, hlen, hinst, hwalk⟩ := h.enc_mem hmem
    have hpos := pos_add_length_le_posMax (hs.inst x hx) hc hlen
    obtain ⟨-, -, hkey, hiv, -, -, -, hevents⟩ := mixAll_spec _ (hs.inst x hx) hpos
    rw [hevents] at hwalk
    obtain ⟨j, hj, rfl, hblock, hks⟩ := enc_mem_mixEvents hwalk
    refine ⟨_, x.pos + j, hinst, by omega, hkey.symm, by rw [hblock, hiv], hks, fun hne => absurd rfl hne, fun _ hread => ?_⟩
    cases hread
    exact ⟨x, j, hx, hj, rfl⟩

/-! A cipher engine that never answers (R191, U18). -/

/-- The response of a command comes last: the events before any one of its events hold none. -/
theorem rspCount_take_newEvents {i : Instr} {s t : State} {k : Nat} (h : exec i s = .next t) (hk : k < (newEvents s t).length) :
    rspCount ((newEvents s t).take k) = 0 := by
  obtain ⟨u, hu, ⟨fs, st, v, hev, hfs, -⟩ | ⟨hev, -⟩⟩ := exec_ends i s <;> cases hu.symm.trans h
  · rw [newEvents_of_append hev] at hk ⊢
    have hle : k ≤ fs.length := by simpa [Nat.lt_succ_iff] using hk
    have hsplit := rspCount_append (fs.take k) (fs.drop k)
    rw [List.take_append_drop, hfs] at hsplit
    rw [List.take_append_of_le_length hle]
    omega
  · simp [newEvents, hev] at hk

/-- A cipher engine that goes silent on a request of a command leaves it stalled there. -/
theorem interruptible_cipherSilent {s t : State} {k : Nat} {key block ks : Bytes16} {rest : List PortInput}
    (hin : s.input = .cipherSilent k :: rest) (hk : (newEvents s t)[k]? = some (.enc key block ks)) :
    interruptible s (.next t) = .next (stalled s t k (.cipher key block) rest) := by
  have hreq : cipherRequest s t k = some (.cipher key block) := by
    rw [newEvents] at hk
    rw [cipherRequest, hk]
  simp only [interruptible, hin, hreq]

/-- Settles O37: the step leaves the command stalled at its event `k`, before the response. -/
theorem silentCipherBlocks : Obligations.SilentCipherBlocks := by
  intro s t bs i k key block ks rest hp hdec hin hexec hk
  obtain ⟨hlt, -⟩ := List.getElem?_eq_some_iff.mp hk
  refine ⟨stalled { s with input := .cipherSilent k :: rest } t k (.cipher key block) rest, ?_, rfl, rfl, rfl, rfl, ?_,
    rfl⟩
  · rw [step_of_decode hp hdec hin, hexec]
    exact interruptible_cipherSilent rfl hk
  · exact (congrArg rspCount (newEvents_of_append rfl)).trans (rspCount_take_newEvents hexec hlt)

end Sys2Proof.Machine

/-! The commands of `42_stream_control.md`: the position set, `INIT`, `RELEASE`, the queries and the seeks, case by case. -/

namespace Sys2Proof.Machine

open Config (Cipher)

/-! The position set (R110). -/

/-- The counter of a position set is `Reset` of `IV` to the block of the position (R95, R110). -/
theorem positioned_ctr (E : Cipher) (x : Instance) (t : Nat) : (positioned E x t).ctr = counterReset x.iv (t / 16) := rfl

/-- A legal position set writes the four elements of R110, asks the cipher once and responds. -/
theorem setPosition_of_legal {E : Cipher} {x : Instance} {t : Int} {s : State} (h : 0 ≤ t ∧ t ≤ (s.width.posMax : Int)) :
    setPosition E x t s =
      { s with
        inst := some (positioned E x t.toNat)
        events := s.events ++ [.enc x.key (positioned E x t.toNat).ctr (positioned E x t.toNat).ks, .rsp .ok t.toNat] } := by
  rw [setPosition_legal h]
  simp only [respond, emit, List.append_assoc, List.singleton_append]

/-- Settles O16: the `Instance` after the set is `positioned`; its counter is that of `Reset`, and `FRESH = 1` leaves no lag. -/
theorem setPositionResynchronises : Obligations.SetPositionResynchronises := by
  refine ⟨fun E x t s h0 hmax => ?_, fun E x t s hout => setPosition_illegal (by omega)⟩
  have hval : val (positioned E x t.toNat).ctr = (val x.iv + t.toNat / 16) % 2 ^ 128 := by
    rw [positioned_ctr, val_counterReset]
  exact ⟨positioned E x t.toNat, setPosition_of_legal ⟨h0, hmax⟩, rfl, Int.toNat_of_nonneg h0, lag_of_fresh rfl, hval,
    rfl⟩

/-! The configured check of a command (R163). -/

/-- Without an `Instance`, a command that needs one faults, and does nothing else. -/
theorem exec_of_inst_none {i : Instr} {s : State} (h : s.inst = none)
    (hi : i.cmd ∈ [Cmd.release, .getlen, .getpos, .setpos, .seekBegin, .seekCur, .seekEnd, .read]) :
    exec i s = .next (faulted .notConfigured 0 s) := by
  cases i
  case init => simp [Instr.cmd] at hi
  case write => simp [Instr.cmd] at hi
  case setlen => simp [Instr.cmd] at hi
  case flush => simp [Instr.cmd] at hi
  all_goals exact congrArg Host.Outcome.next (whenConfigured_none h _)

/-! `INIT` (R111). -/

/-- What `INIT` loads, and the one request it makes: at position 0 the counter is `IV` itself. -/
theorem loadInstance_eq (E : Cipher) (key iv : Bytes16) (hdr srclen : Nat) :
    loadInstance E key iv hdr srclen =
      ({ key := key, iv := iv, hdr := hdr, srclen := srclen, ctr := iv, ks := E key iv, pos := 0, fresh := true },
        [.enc key iv (E key iv)]) := by
  have hctr : bytes16 ((val iv + 0 / 16) % 2 ^ 128) = iv := counterReset_zero iv
  simp only [loadInstance, placeAt_eq, positioned, hctr]

theorem legalConfig_iff {w : Config.Width} {hdr srclen : Nat} :
    legalConfig w hdr srclen = true ↔ hdr ≤ srclen ∧ srclen ≤ w.posMax := by
  simp only [legalConfig, Bool.and_eq_true, decide_eq_true_eq]

theorem initWith_of_some {s : State} {x : Instance} (hx : s.inst = some x) (E : Cipher) (key iv : Bytes16) (hdr srclen : Nat) :
    initWith E key iv hdr srclen s = takeFault .alreadyConfigured 0 s := by
  simp only [initWith, hx]

theorem initWith_legal {s : State} (hs : s.inst = none) {hdr srclen : Nat} (h : hdr ≤ srclen ∧ srclen ≤ s.width.posMax)
    (E : Cipher) (key iv : Bytes16) :
    initWith E key iv hdr srclen s =
      respond .ok 0 (emit (loadInstance E key iv hdr srclen).2 { s with inst := some (loadInstance E key iv hdr srclen).1 }) := by
  simp only [initWith, hs, if_pos (legalConfig_iff.mpr h)]

theorem initWith_illegal {s : State} (hs : s.inst = none) {hdr srclen : Nat}
    (h : ¬ (hdr ≤ srclen ∧ srclen ≤ s.width.posMax)) (E : Cipher) (key iv : Bytes16) :
    initWith E key iv hdr srclen s = takeFault .configRange 0 s := by
  simp only [initWith, hs, if_neg (legalConfig_iff.not.mpr h)]

/-- Settles O17, by the three cases of `INIT`. -/
theorem initConstructsInstance : Obligations.InitConstructsInstance := by
  refine ⟨fun s key iv hdr srclen hs hh hl => ?_,
    fun s x key iv hdr srclen hx => congrArg Host.Outcome.next (initWith_of_some hx Config.E key iv hdr srclen),
    fun s key iv hdr srclen hs hout => congrArg Host.Outcome.next (initWith_illegal hs (by omega) Config.E key iv)⟩
  refine congrArg Host.Outcome.next ?_
  rw [initWith_legal hs ⟨hh, hl⟩, loadInstance_eq]
  simp only [respond, emit, List.append_assoc, List.singleton_append]

/-! `RELEASE` and the queries (R112, R113, R114). -/

/-- Settles O18: with an `Instance`, `RELEASE` makes it absent and responds. -/
theorem releaseDestroysInstance : Obligations.ReleaseDestroysInstance :=
  ⟨fun _ _ hx => exec_release_of_some hx, fun _ hs => exec_of_inst_none hs (by decide)⟩

/-- `LEN` is the integer difference wherever the header fits in the source (R27, R33). -/
theorem len_cast {x : Instance} (h : x.hdr ≤ x.srclen) : (len x : Int) = (x.srclen : Int) - x.hdr := Nat.cast_sub h

/-- Settles O19: the response carries `LEN`, which is at most `SRCLEN`. -/
theorem getlenRespondsLength : Obligations.GetlenRespondsLength := by
  refine ⟨fun s x hx hh => ⟨len x, ?_, len_cast hh, fun hl => ?_⟩, fun s hs => exec_of_inst_none hs (by decide)⟩
  · exact congrArg Host.Outcome.next (whenConfigured_some hx _)
  · calc len x ≤ x.srclen := Nat.sub_le _ _
      _ ≤ s.width.posMax := hl

/-- Settles O20: the response carries `POS`. -/
theorem getposRespondsPosition : Obligations.GetposRespondsPosition :=
  ⟨fun _ _ hx => congrArg Host.Outcome.next (whenConfigured_some hx _), fun _ hs => exec_of_inst_none hs (by decide)⟩

/-! The position-setting commands (R115 to R118): each is `SEEK.BEGIN` to its target. -/

/-- With an `Instance`, `SEEK.BEGIN` is the position set to its offset (R116). -/
theorem exec_seekBegin_of_some {s : State} {x : Instance} (hx : s.inst = some x) (off : Int) :
    exec (.seekBegin off) s = .next (setPosition Config.E x off s) :=
  congrArg Host.Outcome.next (whenConfigured_some hx _)

/-- A `SEEK.BEGIN` in range is a position set (R116). -/
theorem exec_seekBegin_legal {s : State} {x : Instance} {off : Int} (hx : s.inst = some x)
    (h : 0 ≤ off ∧ off ≤ (s.width.posMax : Int)) : exec (.seekBegin off) s = .next (repositioned s x off.toNat) := by
  rw [exec_seekBegin_of_some hx, setPosition_of_legal h]
  rfl

/-- `SEEK.CUR off` is `SEEK.BEGIN` to `POS + off` (R117). -/
theorem exec_seekCur_eq_seekBegin {s : State} {x : Instance} (hx : s.inst = some x) (off : Int) :
    exec (.seekCur off) s = exec (.seekBegin ((x.pos : Int) + off)) s := by
  rw [exec_seekBegin_of_some hx]
  exact congrArg Host.Outcome.next (whenConfigured_some hx _)

/-- `SEEK.END off` is `SEEK.BEGIN` to `(SRCLEN - HDR) + off` (R118). -/
theorem exec_seekEnd_eq_seekBegin {s : State} {x : Instance} (hx : s.inst = some x) (hh : x.hdr ≤ x.srclen) (off : Int) :
    exec (.seekEnd off) s = exec (.seekBegin ((x.srclen : Int) - x.hdr + off)) s := by
  rw [exec_seekBegin_of_some hx, ← len_cast hh]
  exact congrArg Host.Outcome.next (whenConfigured_some hx _)

/-- Settles O21: `SETPOS p` is `SEEK.BEGIN p`, whose target is never negative. -/
theorem setposMovesCursor : Obligations.SetposMovesCursor := by
  refine ⟨fun s x p hx hp => ?_, fun s x p hx hp => ?_, fun s p hs => exec_of_inst_none hs (by simp [Instr.cmd])⟩
  · rw [exec_setpos_eq_seekBegin, exec_seekBegin_legal hx (by omega), Int.toNat_natCast]
  · rw [exec_setpos_eq_seekBegin, exec_seekBegin_illegal hx (by omega)]

/-- Settles O22, by the range of the target. -/
theorem seekBeginMovesCursor : Obligations.SeekBeginMovesCursor :=
  ⟨fun _ _ _ hx h0 hmax => exec_seekBegin_legal hx ⟨h0, hmax⟩, fun _ _ _ hx hout => exec_seekBegin_illegal hx (by omega),
    fun _ _ hs => exec_of_inst_none hs (by simp [Instr.cmd])⟩

/-- Settles O23: `SEEK.BEGIN` to the integer `POS + off`. -/
theorem seekCurMovesCursor : Obligations.SeekCurMovesCursor := by
  refine ⟨fun s x off hx h0 hmax => ?_, fun s x off hx hout => ?_, fun s off hs => exec_of_inst_none hs (by simp [Instr.cmd])⟩
  · rw [exec_seekCur_eq_seekBegin hx, exec_seekBegin_legal hx ⟨h0, hmax⟩]
  · rw [exec_seekCur_eq_seekBegin hx, exec_seekBegin_illegal hx (by omega)]

/-- Settles O24: `SEEK.BEGIN` to the integer `(SRCLEN - HDR) + off`. -/
theorem seekEndMovesCursor : Obligations.SeekEndMovesCursor := by
  refine ⟨fun s x off hx hh h0 hmax => ?_, fun s x off hx hh hout => ?_,
    fun s off hs => exec_of_inst_none hs (by simp [Instr.cmd])⟩
  · rw [exec_seekEnd_eq_seekBegin hx hh, exec_seekBegin_legal hx ⟨h0, hmax⟩]
  · rw [exec_seekEnd_eq_seekBegin hx hh, exec_seekBegin_illegal hx (by omega)]

end Sys2Proof.Machine

/-! `READ` and the mixer (43_read_mixer.md): one byte, one `READ` case by case, and passes over the ideal source. -/

namespace Sys2Proof.Machine

open Config (Cipher)

/-! One byte of the mixer (R134). -/

theorem toList_getD_mod (B : Bytes16) (i : Nat) : B.toList.getD (i % 16) 0 = B[i % 16]'(Nat.mod_lt _ (by decide)) := by
  rw [List.getD_eq_getElem _ _ (by simpa using Nat.mod_lt i (by decide)), Vector.getElem_toList]

theorem keystreamByte_eq_getD (x : Instance) : keystreamByte x = x.ks.toList.getD (x.pos % 16) 0 :=
  (toList_getD_mod x.ks x.pos).symm

/-- The keystream of a position in the words of `Reset` (R138). -/
theorem keystreamAt_eq_getD (E : Cipher) (key iv : Bytes16) (i : Nat) :
    keystreamAt E key iv i = (E key (counterReset iv (i / 16))).toList.getD (i % 16) 0 :=
  (toList_getD_mod _ i).symm

/-- Settles O28, by the two cases of the crossing test. -/
theorem byteMixSteps : Obligations.ByteMixSteps := by
  refine fun E x b => ⟨fun hc => ?_, fun hc => ?_⟩
  · refine ⟨{ x with ctr := counterInc x.ctr, ks := E x.key (counterInc x.ctr), pos := x.pos + 1, fresh := false },
      rfl, rfl, ?_⟩
    rw [byteMix, crossBlock, if_pos ((crosses_iff x).mpr hc), keystreamByte_eq_getD]
    rfl
  · refine ⟨{ x with pos := x.pos + 1, fresh := false }, rfl, rfl, ?_⟩
    rw [byteMix, crossBlock, if_neg ((crosses_iff x).not.mpr hc), keystreamByte_eq_getD]
    rfl

/-! `READ`, case by case (R132, R135). -/

theorem exec_read_of_clamp_eq_zero {s : State} {x : Instance} {count : Nat} (hx : s.inst = some x) (hc : clamp x count = 0) :
    exec (.read count) s = .next { s with events := s.events ++ [.rsp .ok 0] } := by
  refine congrArg Host.Outcome.next ?_
  rw [readWith, whenConfigured_some hx, readInstance, if_pos hc]
  rfl

/-- Settles O27: there is nothing to ask for where nothing is asked, and beyond the end. -/
theorem emptyReadChangesNothing : Obligations.EmptyReadChangesNothing := by
  refine fun s x count hx hempty => exec_read_of_clamp_eq_zero hx ?_
  obtain rfl | hend := hempty
  · exact Nat.le_zero.mp (clamp_le x 0).1
  · exact clamp_of_len_le hend count

theorem exec_read_of_clamp_ne_zero {s : State} {x : Instance} {count : Nat} (hx : s.inst = some x) (hc : clamp x count ≠ 0) :
    exec (.read count) s = .next (readAnswered Config.E x (clamp x count)
      { s with source := (srcRead s.width (x.pos + x.hdr) (clamp x count) s.source).2 }
      (srcRead s.width (x.pos + x.hdr) (clamp x count) s.source).1) := by
  refine congrArg Host.Outcome.next ?_
  rw [readWith, whenConfigured_some hx, readInstance, if_neg hc]
  rfl

/-- The next state of a `READ` that is answered with data (R135). -/
theorem exec_read_of_ok {s : State} {x : Instance} {count : Nat} {data : List Byte} (hx : s.inst = some x)
    (hc : clamp x count ≠ 0) (hr : (srcRead s.width (x.pos + x.hdr) (clamp x count) s.source).1 = some (.ok data)) :
    exec (.read count) s = .next { s with
      inst := some (mixAll Config.E x data).1
      source := (srcRead s.width (x.pos + x.hdr) (clamp x count) s.source).2
      events := s.events ++ (.src (x.pos + x.hdr) (clamp x count) (.ok data) ::
        ((mixAll Config.E x data).2 ++ [.rsp .ok data.length])) } := by
  rw [exec_read_of_clamp_ne_zero hx hc, hr]
  simp only [readAnswered, respond, emit, physAddr, List.append_assoc, List.cons_append]

/-- After a mix the counter is that of the block of the byte before `POS` (R31, R135). -/
theorem Instance.Inv.counter_of_not_fresh {E : Cipher} {w : Config.Width} {x : Instance} (h : x.Inv E w)
    (hf : x.fresh = false) : val x.ctr = (val x.iv + (x.pos - 1) / 16) % 2 ^ 128 := by
  have hpos : x.pos ≠ 0 := fun h0 => by simp [h.start_fresh h0] at hf
  have hlag : lag x = if x.pos % 16 = 0 then 1 else 0 := by simp [lag, hf, Nat.pos_of_ne_zero hpos]
  rw [h.counter, hlag]
  congr 1
  split <;> omega

/-- An `Instance` of the same configuration differs in the other four elements alone. -/
theorem Instance.eq_of_config_eq {x y : Instance} (h : y.config = x.config) :
    y = { x with pos := y.pos, ctr := y.ctr, ks := y.ks, fresh := y.fresh } := by
  obtain ⟨hkey, hiv, hhdr, hsrclen⟩ := config_eq_iff.mp h
  rw [← hkey, ← hiv, ← hhdr, ← hsrclen]

/-- Settles O29: the walk over the data answered is that of `mixAll_spec`, and it ends at a byte of the block of `POS - 1`. -/
theorem readMixesAndAdvances : Obligations.ReadMixesAndAdvances := by
  refine ⟨fun s count hs => exec_of_inst_none hs (by simp [Instr.cmd]), fun s x count hx hc => exec_read_of_clamp_eq_zero hx hc,
    fun s x count code hx hc hr => ?_, fun s x count data hs hx hc hr => ?_⟩
  · rw [exec_read_of_clamp_ne_zero hx hc, hr]
    simp only [readAnswered, takeFault, respond, emit, physAddr, List.append_assoc, List.singleton_append]
  · have hlen := srcRead_data_le hr
    obtain ⟨hinv, hpos, hkey, hiv, -, -, hfresh, hevents⟩ :=
      mixAll_spec data (hs.inst x hx) (pos_add_length_le_posMax (hs.inst x hx) hc hlen)
    refine ⟨(mixAll Config.E x data).1, by rw [exec_read_of_ok hx hc hr, hevents], hlen, fun hnil => by rw [hnil, mixAll],
      fun hne => ?_⟩
    have hmixed : (mixAll Config.E x data).1.fresh = false := by simp [hfresh, hne]
    refine ⟨?_, hpos, ?_, ?_⟩
    · have heq := Instance.eq_of_config_eq (mixAll_config Config.E x data)
      rwa [hmixed] at heq
    · rw [hinv.counter_of_not_fresh hmixed, hiv, hpos]
    · rw [hinv.keystream, hkey]

/-- Settles O30: the bytes of the walk are `outBytes_mixAll`'s; the request and the response are no bytes. -/
theorem outputIsSourceXorKeystream : Obligations.OutputIsSourceXorKeystream := by
  intro s x count data hs hx hc hr
  have hpos := pos_add_length_le_posMax (hs.inst x hx) hc (srcRead_data_le hr)
  refine ⟨_, exec_read_of_ok hx hc hr, ?_⟩
  rw [newEvents_of_append rfl, outBytes, outBytes_append, outBytes_mixAll (hs.inst x hx) hpos]
  simp only [keystreamAt_eq_getD]
  exact List.append_nil _

/-! A pass over the ideal source of a byte array (R139, R140, R187). -/

/-- What a whole pass puts out: every byte behind the header, under the keystream of its position (R138). -/
def stream (key iv : Bytes16) (hdr : Nat) (bytes : List Byte) : List Byte :=
  (bytes.drop hdr).mapIdx fun i b => b ^^^ keystreamAt Config.E key iv i

theorem stream_length (key iv : Bytes16) (hdr : Nat) (bytes : List Byte) :
    (stream key iv hdr bytes).length = bytes.length - hdr := by simp [stream]

/-- A piece of a pass, byte by byte. -/
theorem take_drop_stream (key iv : Bytes16) (hdr : Nat) (bytes : List Byte) (p n : Nat) :
    ((stream key iv hdr bytes).drop p).take n =
      ((bytes.drop (p + hdr)).take n).mapIdx fun j b => b ^^^ keystreamAt Config.E key iv (p + j) := by
  refine List.ext_getElem (by simp [stream_length, Nat.sub_sub, Nat.add_comm]) fun j _ _ => ?_
  simp only [stream, List.getElem_take, List.getElem_drop, List.getElem_mapIdx]
  simp only [Nat.add_comm, Nat.add_left_comm]

/-- A pass over a pass, with the same key and IV, gives the bytes back (R140). -/
theorem stream_stream (key iv : Bytes16) (tag plain : List Byte) :
    stream key iv tag.length (tag ++ stream key iv 0 plain) = plain := by
  rw [stream, List.drop_left, stream, List.drop_zero]
  refine List.ext_getElem (by simp) fun j _ _ => ?_
  simp only [List.getElem_mapIdx, BitVec.xor_assoc, BitVec.xor_self, BitVec.xor_zero]

/-- The block is ready for a command at position `p` of a pass over `bytes`. -/
structure Streaming (w : Config.Width) (key iv : Bytes16) (hdr : Nat) (bytes : List Byte) (p : Nat) (s : State) : Prop where
  width : s.width = w
  pending : s.pending = none
  source : s.source = Source.ofBytes bytes
  inst : ∃ x, s.inst = some x ∧ x.Inv Config.E w ∧ x.config = (key, iv, hdr, bytes.length) ∧ x.pos = p

section
variable {w : Config.Width} {key iv : Bytes16} {hdr : Nat} {bytes : List Byte} {p : Nat} {s : State}

/-- The clamp of a `READ` in a pass is no more than the end of the bytes does by itself. -/
theorem take_clamp_of_srclen {x : Instance} (hl : x.srclen = bytes.length) (n : Nat) :
    (bytes.drop (x.pos + x.hdr)).take (clamp x n) = (bytes.drop (x.pos + x.hdr)).take n := by
  rw [List.take_eq_take_iff, List.length_drop]
  unfold clamp len
  split <;> omega

/-- `INIT` with the length of the source begins a pass (R111). -/
theorem exec_init_streaming (key iv : Bytes16) (hh : hdr ≤ bytes.length) (hl : bytes.length ≤ w.posMax) :
    ∃ t, exec (.init key iv hdr bytes.length) { State.resetAt w with source := Source.ofBytes bytes } = .next t ∧
      outBytes t.events = [] ∧ Streaming w key iv hdr bytes 0 t := by
  exact ⟨_, congrArg Host.Outcome.next (initWith_legal rfl ⟨hh, hl⟩ Config.E key iv), rfl, rfl, rfl, rfl, _, rfl,
    positioned_inv hh hl (Nat.zero_le _), rfl, rfl⟩

/-- A position set in a pass moves it, and puts out no byte (R110). -/
theorem Streaming.exec_seekBegin (h : Streaming w key iv hdr bytes p s) {P : Nat} (hP : P ≤ w.posMax) :
    ∃ t, exec (.seekBegin P) s = .next t ∧ outBytes t.events = outBytes s.events ∧ Streaming w key iv hdr bytes P t := by
  obtain ⟨rfl, hp, hsrc, x, hx, hinv, hconf, -⟩ := h
  refine ⟨_, exec_seekBegin_legal hx (by omega), ?_, rfl, hp, hsrc, _, rfl,
    positioned_inv hinv.hdr_le hinv.srclen_le hP, hconf, rfl⟩
  exact (outBytes_append _ _).trans (List.append_nil _)

/-- A `READ` in a pass puts out the next bytes of it, and moves by as many (R135, R138). -/
theorem Streaming.exec_read (h : Streaming w key iv hdr bytes p s) (n : Nat) :
    ∃ t, exec (.read n) s = .next t ∧
      outBytes t.events = outBytes s.events ++ ((stream key iv hdr bytes).drop p).take n ∧
      Streaming w key iv hdr bytes (p + (((stream key iv hdr bytes).drop p).take n).length) t := by
  obtain ⟨rfl, hp, hsrc, x, hx, hinv, hconf, rfl⟩ := h
  obtain ⟨rfl, rfl, rfl, hl⟩ : x.key = key ∧ x.iv = iv ∧ x.hdr = hdr ∧ x.srclen = bytes.length := by
    simpa only [Instance.config, Prod.mk.injEq] using hconf
  rw [take_drop_stream, List.length_mapIdx, ← take_clamp_of_srclen hl]
  by_cases hc : clamp x n = 0
  · refine ⟨_, exec_read_of_clamp_eq_zero hx hc, ?_, rfl, hp, hsrc, x, hx, hinv, hconf, by rw [hc]; rfl⟩
    rw [hc, outBytes_append]
    rfl
  · have hr := srcRead_ofBytes s.width bytes (x.pos + x.hdr) (clamp x n)
    rw [← hsrc] at hr
    have hmax := pos_add_length_le_posMax hinv hc (List.length_take_le _ (bytes.drop (x.pos + x.hdr)))
    obtain ⟨hinv', hpos, -⟩ := mixAll_spec _ hinv hmax
    refine ⟨_, exec_read_of_ok hx hc (congrArg Prod.fst hr), ?_, rfl, hp, (congrArg Prod.snd hr).trans hsrc, _, rfl, hinv',
      (mixAll_config _ _ _).trans hconf, hpos⟩
    rw [outBytes_append, outBytes, outBytes_append, outBytes_mixAll hinv hmax]
    exact congrArg _ (List.append_nil _)

/-! Runs of commands in a pass. -/

theorem runCommands_cons {i : Instr} {s t : State} (hp : s.pending = none) (h : exec i s = .next t) (is : List Instr) :
    runCommands (i :: is) s = runCommands is t := by
  simp only [runCommands, hp, h]

/-- Reads in a pass put out as many bytes as their counts add up to, however they are cut (R140). -/
theorem Streaming.outBytes_reads (h : Streaming w key iv hdr bytes p s) (counts : List Nat) :
    outBytes (runCommands (counts.map .read) s).events =
      outBytes s.events ++ ((stream key iv hdr bytes).drop p).take counts.sum := by
  induction counts generalizing p s with
  | nil => exact (List.append_nil _).symm
  | cons n counts ih =>
    obtain ⟨t, ht, hout, hstream⟩ := h.exec_read n
    have hnext : ((stream key iv hdr bytes).drop (p + (((stream key iv hdr bytes).drop p).take n).length)) =
        ((stream key iv hdr bytes).drop p).drop n := by
      rw [← List.drop_drop, List.length_take, ← List.drop_eq_drop_min]
    rw [List.map_cons, runCommands_cons h.pending ht, ih hstream, hout, hnext, List.sum_cons, List.take_add, List.append_assoc]

/-- `INIT` and any reads put out the bytes of the pass from its beginning. -/
theorem outBytes_init_reads (key iv : Bytes16) (hh : hdr ≤ bytes.length) (hl : bytes.length ≤ w.posMax) (counts : List Nat) :
    outBytes (runCommands (.init key iv hdr bytes.length :: counts.map .read)
        { State.resetAt w with source := Source.ofBytes bytes }).events = (stream key iv hdr bytes).take counts.sum := by
  obtain ⟨t, ht, hout, hstream⟩ := exec_init_streaming key iv hh hl
  rw [runCommands_cons rfl ht, hstream.outBytes_reads, hout, List.nil_append, List.drop_zero]

/-- `INIT`, a position set and one `READ` put out the bytes of the pass from that position on. -/
theorem outBytes_init_seek_read (key iv : Bytes16) (hh : hdr ≤ bytes.length) (hl : bytes.length ≤ w.posMax) {P : Nat}
    (hP : P ≤ w.posMax) (n : Nat) :
    outBytes (runCommands [.init key iv hdr bytes.length, .seekBegin P, .read n]
        { State.resetAt w with source := Source.ofBytes bytes }).events = ((stream key iv hdr bytes).drop P).take n := by
  obtain ⟨t, ht, hout, hstream⟩ := exec_init_streaming key iv hh hl
  obtain ⟨u, hu, hout', hstream'⟩ := hstream.exec_seekBegin hP
  have hread := hstream'.outBytes_reads [n]
  rw [List.map_singleton, List.sum_singleton, hout', hout, List.nil_append] at hread
  rw [runCommands_cons rfl ht, runCommands_cons hstream.pending hu, hread]

theorem streamPass_eq (key iv : Bytes16) (hh : hdr ≤ bytes.length) (hl : bytes.length ≤ w.posMax) (n : Nat) :
    streamPass w key iv hdr bytes n = (stream key iv hdr bytes).take n := by
  rw [streamPass, ← List.map_singleton, outBytes_init_reads key iv hh hl, List.sum_singleton]

/-- A `READ` of the whole length puts the whole pass out. -/
theorem streamPass_all (key iv : Bytes16) (hl : bytes.length ≤ w.posMax) :
    streamPass w key iv 0 bytes bytes.length = stream key iv 0 bytes := by
  rw [streamPass_eq key iv (Nat.zero_le _) hl, List.take_of_length_le (by rw [stream_length, Nat.sub_zero])]

end

/-- Settles O31: both sides are the byte at `P` of the same pass. -/
theorem seekInvariance : Obligations.SeekInvariance := by
  intro w key iv hdr bytes P hl hP
  have hh : hdr ≤ bytes.length := by omega
  have hset : exec (.setpos P) = exec (.seekBegin P) := funext (exec_setpos_eq_seekBegin P)
  have hseek := outBytes_init_seek_read key iv hh hl (P := P) (by omega) 1
  rw [streamPass_eq key iv hh hl, List.drop_take, Nat.add_sub_cancel_left]
  simpa only [runCommands, hset] using hseek

/-- Settles O33: the second pass reads behind the tag, and undoes the first. -/
theorem roundTripBehindTag : Obligations.RoundTripBehindTag := by
  intro w key iv tag plain hl
  rw [streamPass_all key iv (by omega), streamPass_eq key iv (by simp) (by simpa [stream_length] using hl), stream_stream,
    List.take_length]

/-- Settles O32: every pass is a piece of `stream`, and a second pass is one behind an empty tag. -/
theorem roundTrip : Obligations.RoundTrip := by
  refine ⟨fun w key iv buffer hl => ?_, fun w key iv bytes counts hl hsum => ?_, fun w key iv bytes P n hl hP => ?_⟩
  · exact roundTripBehindTag w key iv [] buffer (by simpa using hl)
  · rw [outBytes_init_reads key iv (Nat.zero_le _) hl, hsum, streamPass_eq key iv (Nat.zero_le _) hl]
  · rw [outBytes_init_seek_read key iv (Nat.zero_le _) hl hP, streamPass_all key iv hl]

end Sys2Proof.Machine

/-! The commands that only fault (44_unsupported.md): the write class, and the reserved opcodes, from their frame to the response. -/

namespace Sys2Proof.Machine

/-! The write class (R150 to R152). -/

/-- A write-class command faults and does nothing else, whatever its operand and whether or not there is an `Instance`. -/
theorem exec_of_write_class {i : Instr} (hi : i.cmd ∈ [Cmd.write, .setlen, .flush]) (s : State) :
    exec i s = .next (faulted .capabilityViolation 0 s) := by
  cases i
  case write => rfl
  case setlen => rfl
  case flush => rfl
  all_goals simp [Instr.cmd] at hi

/-- Settles O46: the three commands are the write class. -/
theorem writeClassFaults : Obligations.WriteClassFaults := fun s n =>
  ⟨exec_of_write_class (i := .write n) (by simp [Instr.cmd]) s, exec_of_write_class (i := .setlen n) (by simp [Instr.cmd]) s,
    exec_of_write_class (i := .flush) (by simp [Instr.cmd]) s⟩

/-! The reserved opcodes (R76, R154). -/

/-- The byte of a reserved opcode is a complete frame (R74). -/
theorem fetch_reserved {op : Byte} (h : Cmd.ofOp op = none) (w : Config.Width) (rest : List PortInput) :
    fetch w (.byte op :: rest) = .frame [op] rest := by
  rw [fetch, framelen_of_reserved h, Nat.sub_self, collect]

/-- That frame runs as a fault. -/
theorem runFrame_reserved {op : Byte} (h : Cmd.ofOp op = none) (s : State) :
    runFrame [op] s = .next (faulted .illegalCommand 0 s) := by
  rw [runFrame, decode_reserved h]
  rfl

/-- A step of a ready block on a reserved opcode faults, and what follows may come between. -/
theorem step_of_reserved {s : State} {op : Byte} {rest : List PortInput} (h : Cmd.ofOp op = none) (hp : s.pending = none)
    (hin : s.input = .byte op :: rest) :
    step s = interruptible { s with input := rest } (.next (faulted .illegalCommand 0 { s with input := rest })) := by
  rw [step_of_ready hp, stepReady, hin, fetch_reserved h]
  exact congrArg (interruptible _) (runFrame_reserved h _)

/-- The response of a fault is its one event. -/
theorem newEvents_faulted (st : Status) (v : Nat) (s : State) : newEvents s (faulted st v s) = [.rsp st v] :=
  newEvents_of_append rfl

/-- Only a reset input before its one event keeps a fault from its response: it asks nothing of the cipher engine. -/
theorem undisturbed_faulted {rest : List PortInput} (h : ∀ r, rest ≠ .reset 0 :: r) (st : Status) (v : Nat) (s : State) :
    undisturbed s (faulted st v s) rest := by
  rw [undisturbed, newEvents_faulted]
  constructor
  · rintro k r rfl
    have hk : k ≠ 0 := by rintro rfl; exact h r rfl
    exact Nat.one_le_iff_ne_zero.mpr hk
  · intro k r _ key block ks hk
    cases List.mem_singleton.mp (List.mem_of_getElem? hk)

/-- Settles O5: the byte is a frame that faults, and what follows keeps it from its response in no way. -/
theorem reservedOpcodeFaults : Obligations.ReservedOpcodeFaults := by
  intro s op rest hop hp hin hrest
  rw [step_of_reserved hop hp hin]
  exact interruptible_undisturbed (undisturbed_faulted hrest _ _ _)

end Sys2Proof.Machine

/-! The exceptions (60_exceptions.md): what a fault leaves unchanged, and which fault comes first. -/

namespace Sys2Proof.Machine

/-! Without an `Instance` (R163). -/

/-- Settles O47: every command of the row begins with the configured check. -/
theorem commandsNeedAnInstance : Obligations.CommandsNeedAnInstance := fun _ _ hs hi => exec_of_inst_none hs hi

/-! The source's error (R168). -/

/-- Settles O50: the code is within the contract, so that the answer comes as it is, and the script is one answer shorter. -/
theorem sourceErrorPropagates : Obligations.SourceErrorPropagates := by
  intro s x count code rest hx hc h0 hcode hscript
  obtain ⟨-, herr, -⟩ := sourceAnswersWithinContract
  obtain ⟨-, -, hread, -⟩ := readMixesAndAdvances
  have hsrc : srcRead s.width (x.pos + x.hdr) (clamp x count) s.source =
      (some (.err code), { s.source with script := rest }) := by
    have h := herr s.width s.source (x.pos + x.hdr) (clamp x count) code rest h0 hcode
    rwa [← hscript] at h
  rw [hread s x count code hx hc (congrArg Prod.fst hsrc), hsrc]

/-! Precise faults (R165). -/

/-- The response that ends a command, and the events before it, can be read off its events in one way. -/
theorem last_response_unique {s t : State} {es fs : List Event} {st st' : Status} {v v' : Nat}
    (h : t.events = s.events ++ es ++ [.rsp st v]) (h' : t.events = s.events ++ fs ++ [.rsp st' v']) :
    es = fs ∧ st = st' ∧ v = v' := by
  obtain ⟨hes, hrsp⟩ := List.append_inj' (h.symm.trans h') rfl
  cases hrsp
  exact ⟨List.append_cancel_left hes, rfl, rfl⟩

/-- A command that faults from `s` to `t` before it asks for anything. -/
def FaultsAtOnce (s t : State) (es : List Event) (st : Status) (v : Nat) : Prop :=
  st ≠ .sourceFault ∧ es = [] ∧ t = faulted st v s

/-- A `READ` that ends with the error its source request was answered with (R168). -/
def FaultsBySource (i : Instr) (s t : State) (es : List Event) (st : Status) (v : Nat) : Prop :=
  ∃ x count src, i = .read count ∧ s.inst = some x ∧ clamp x count ≠ 0 ∧ st = .sourceFault ∧
    es = [.src (physAddr x x.pos) (clamp x count) (.err v)] ∧
    t = { s with source := src, events := s.events ++ es ++ [.rsp st v] }

/-- Everything a command that ends with a fault can be. -/
theorem exec_fault_cases {i : Instr} {s t : State} {es : List Event} {st : Status} {v : Nat} (h : exec i s = .next t)
    (hev : t.events = s.events ++ es ++ [.rsp st v]) (hst : st ≠ .ok) :
    FaultsAtOnce s t es st v ∨ FaultsBySource i s t es st v := by
  have not_ok : ∀ fs w, t.events ≠ s.events ++ fs ++ [.rsp .ok w] := fun fs w hok =>
    hst (last_response_unique hev hok).2.1
  obtain h | h | h | h | h := exec_next_cases h
  · obtain ⟨st', v', hsrc, rfl⟩ := h
    obtain ⟨rfl, rfl, rfl⟩ := last_response_unique (fs := []) (st' := st') (v' := v') hev (by simp)
    exact .inl ⟨hsrc, rfl, rfl⟩
  · obtain ⟨_, _, _, _, -, -, -, -, y, -, rfl⟩ := h
    exact absurd (by simp) (not_ok [.enc y.key y.ctr y.ks] 0)
  · obtain ⟨_, -, -, rfl⟩ := h
    exact absurd (by simp) (not_ok [] 0)
  · obtain ⟨x, n, -, -, -, rfl⟩ := h
    exact absurd (by simp [repositioned]) (not_ok [.enc x.key (positioned Config.E x n).ctr (positioned Config.E x n).ks] n)
  · obtain ⟨x, count, src, hi, hx, hc, -, rfl | ⟨code, rfl⟩ | ⟨data, -, rfl⟩⟩ := h.cases
    · simp at hev
    · obtain ⟨rfl, rfl, rfl⟩ :=
        last_response_unique (fs := [.src (physAddr x x.pos) (clamp x count) (.err code)]) (st' := .sourceFault) (v' := code)
          hev (by simp)
      exact .inr ⟨x, count, src, hi, hx, hc, rfl, rfl, by simp⟩
    · exact absurd (by simp)
        (not_ok (.src (physAddr x x.pos) (clamp x count) (.ok data) :: (mixAll Config.E x data).2) data.length)

/-- Settles O48: a fault is at once, or the source's. -/
theorem faultsArePrecise : Obligations.FaultsArePrecise := by
  intro i s t es st v hexec hev hst
  obtain ⟨hsrc, rfl, rfl⟩ | ⟨x, count, src, -, -, -, rfl, rfl, rfl⟩ := exec_fault_cases hexec hev hst
  · exact ⟨rfl, rfl, rfl, fun _ => ⟨rfl, rfl⟩, fun h => absurd h hsrc⟩
  · exact ⟨rfl, rfl, rfl, fun h => absurd rfl h, fun _ => ⟨_, _, v, rfl, rfl⟩⟩

/-! The order of the checks (R170). -/

theorem cfg_eq_false_iff {s : State} : s.cfg = false ↔ s.inst = none := Option.isSome_eq_false_iff.trans Option.isNone_iff_eq_none

/-- The commands that need an `Instance` are those that are neither `INIT` nor of the write class (R160). -/
theorem needs_instance_of_not_init {c : Cmd} (hw : c ∉ [Cmd.write, .setlen, .flush]) (hi : c ≠ .init) :
    c ∈ [Cmd.release, .getlen, .getpos, .setpos, .seekBegin, .seekCur, .seekEnd, .read] := by
  cases c
  case init => exact absurd rfl hi
  case write => simp at hw
  case setlen => simp at hw
  case flush => simp at hw
  all_goals decide

/-- `INIT` on a live `Instance` faults whatever its operands are (R111, R164). -/
theorem exec_init_of_some {i : Instr} {s : State} (hi : i.cmd = .init) (hs : s.cfg = true) :
    exec i s = .next (faulted .alreadyConfigured 0 s) := by
  obtain ⟨x, hx⟩ := Option.isSome_iff_exists.mp hs
  cases i
  case init key iv hdr srclen => exact congrArg Host.Outcome.next (initWith_of_some hx Config.E key iv hdr srclen)
  all_goals cases hi

/-- Each seek is `SEEK.BEGIN` to its target (R116 to R118). -/
theorem exec_seek_eq_seekBegin {s : State} {x : Instance} (hx : s.inst = some x) (origin : Origin) (off : Int) :
    exec (Pseudo.seek off origin).expand s = exec (.seekBegin (seekTarget x origin off)) s := by
  rw [exec_seekBegin_of_some hx]
  cases origin with
  | fromBegin => exact exec_seekBegin_of_some hx off
  | fromCurrent => exact congrArg Host.Outcome.next (whenConfigured_some hx _)
  | fromEnd => exact congrArg Host.Outcome.next (whenConfigured_some hx _)

theorem rsp_notMem_of_rspCount_eq_zero {st : Status} {v : Nat} {l : List Event} (h : rspCount l = 0) : .rsp st v ∉ l := by
  intro hmem
  obtain ⟨l₁, l₂, rfl⟩ := List.append_of_mem hmem
  rw [rspCount_append, rspCount] at h
  omega

/-- A response among a command's events is the one that ends it (R80). -/
theorem events_of_rsp_mem {i : Instr} {s t : State} {st : Status} {v : Nat} (h : exec i s = .next t)
    (hmem : Event.rsp st v ∈ newEvents s t) : ∃ es, t.events = s.events ++ es ++ [.rsp st v] := by
  obtain ⟨u, hu, ⟨fs, st', v', hev, hfs, -⟩ | ⟨hev, -⟩⟩ := exec_ends i s <;> cases hu.symm.trans h
  · rw [newEvents_of_append hev, List.mem_append, List.mem_singleton] at hmem
    obtain hmem | heq := hmem
    · exact absurd hmem (rsp_notMem_of_rspCount_eq_zero hfs)
    · exact ⟨fs, by rw [heq, hev, List.append_assoc]⟩
  · simp [newEvents, hev] at hmem

/-- Settles O49: each check in its turn, and a source fault is that of a `READ` that made its request. -/
theorem faultPriority : Obligations.FaultPriority := by
  refine ⟨reservedOpcodeFaults, fun i s hi => exec_of_write_class hi s,
    fun i s hw => ⟨fun ⟨hi, hs⟩ => exec_init_of_some hi hs,
      fun ⟨hi, hs⟩ => exec_of_inst_none (cfg_eq_false_iff.mp hs) (needs_instance_of_not_init hw hi)⟩,
    fun s key iv hdr srclen hs hout => ?_, fun s x p hx hp => ?_, fun s x origin off hx hout => ?_,
    fun i s t v hexec hmem => ?_⟩
  · exact congrArg Host.Outcome.next (initWith_illegal (cfg_eq_false_iff.mp hs) (by omega) Config.E key iv)
  · rw [exec_setpos_eq_seekBegin, exec_seekBegin_illegal hx (by omega)]
  · rw [exec_seek_eq_seekBegin hx, exec_seekBegin_illegal hx (by omega)]
  · obtain ⟨es, hev⟩ := events_of_rsp_mem hexec hmem
    obtain ⟨hsrc, -⟩ | ⟨x, count, -, hi, hx, hc, -⟩ := exec_fault_cases hexec hev (by decide)
    · exact absurd rfl hsrc
    · exact ⟨x, count, hi, hx, Nat.one_le_iff_ne_zero.mpr hc⟩

end Sys2Proof.Machine

/-! Reset and hazards (70_reset_and_hazards.md): a reset at each point where it can land (R180), what is owed to an earlier
`Instance` (R181), and a source that never answers (R191). -/

namespace Sys2Proof.Machine

/-! Between commands, in a partial frame, and in a wait (R180, R191). -/

theorem step_of_waiting {s : State} (h : s.pending ≠ none) : step s = stepWaiting s := by
  obtain ⟨q, hq⟩ := Option.ne_none_iff_exists'.mp h
  rw [step, hq]

/-- A reset ends a wait, whatever bytes are offered before it (R191). -/
theorem step_reset_of_waiting {s : State} {bs : List Byte} {k : Nat} {rest : List PortInput} (hp : s.pending ≠ none)
    (hin : s.input = bs.map .byte ++ .reset k :: rest) : step s = .next (hardwareReset { s with input := rest }) := by
  rw [step_of_waiting hp, stepWaiting, hin, afterOffered_bytes, afterOffered]

/-- Without a reset to come, a block that waits accepts none of the bytes offered (R191). -/
theorem step_bytes_of_waiting {s : State} {bs : List Byte} (hp : s.pending ≠ none) (hin : s.input = bs.map .byte) :
    step s = .fault .awaitingAnswer := by
  have hoff : afterOffered s.input = [] := by simpa [hin, afterOffered] using afterOffered_bytes bs []
  rw [step_of_waiting hp, stepWaiting, hoff]

/-- A reset that arrives first is a step of its own, whether the block is ready or waits. -/
theorem step_reset {s : State} {k : Nat} {rest : List PortInput} (hin : s.input = .reset k :: rest) :
    step s = .next (hardwareReset { s with input := rest }) := by
  by_cases hp : s.pending = none
  · rw [step_of_ready hp, stepReady, hin, fetch]
  · exact step_reset_of_waiting (bs := []) hp hin

/-- A reset discards the bytes of a frame that is not complete (R74). -/
theorem step_reset_of_partial {s : State} {op : Byte} {bs : List Byte} {k : Nat} {rest : List PortInput}
    (hp : s.pending = none) (hlen : bs.length + 1 < framelen s.width op)
    (hin : s.input = (op :: bs).map .byte ++ .reset k :: rest) : step s = .next (hardwareReset { s with input := rest }) := by
  rw [step_of_ready hp, stepReady, hin, fetch_partial_reset hlen]

/-! Inside a command, and before the response to a reserved opcode (R180). -/

/-- A reset before the last event of a command cuts it short. -/
theorem interruptible_reset {s t : State} {k : Nat} {rest : List PortInput} (hin : s.input = .reset k :: rest)
    (hk : k < (newEvents s t).length) : interruptible s (.next t) = .next (cutShort s t k rest) := by
  rw [newEvents, List.length_drop] at hk
  simp only [interruptible, hin, if_pos hk]

/-- Of a fault cut short nothing is left but the reset: the response was its one event. -/
theorem cutShort_faulted_zero (st : Status) (v : Nat) (s : State) (rest : List PortInput) :
    cutShort s (faulted st v s) 0 rest = hardwareReset { s with input := rest } := by
  simp [cutShort, hardwareReset]

/-- A reset before the response to a reserved opcode leaves only the reset (R154, R180). -/
theorem step_reset_of_reserved {s : State} {op : Byte} {rest : List PortInput} (hop : Cmd.ofOp op = none)
    (hp : s.pending = none) (hin : s.input = .byte op :: .reset 0 :: rest) :
    step s = .next (hardwareReset { s with input := rest }) := by
  rw [step_of_reserved hop hp hin, interruptible_reset rfl (by rw [newEvents_faulted]; exact Nat.zero_lt_one),
    cutShort_faulted_zero]

/-- Settles O55, by where the reset lands: before any byte, in a partial frame, inside a command, which is cut short before its
response, and before the one event of a reserved opcode. -/
theorem hardwareResetAtAnyPoint : Obligations.HardwareResetAtAnyPoint := by
  refine ⟨fun s k rest hin => step_reset hin, fun s op bs k rest hp hlen hin => step_reset_of_partial hp hlen hin,
    fun s t bs i k rest hp hdec hin hexec hk => ?_, fun s op rest hop hp hin => step_reset_of_reserved hop hp hin⟩
  have hrsp := rspCount_take_newEvents hexec hk
  refine ⟨cutShort { s with input := .reset k :: rest } t k rest, ?_, rfl, rfl, rfl, rfl, hrsp, rfl⟩
  rw [step_of_decode hp hdec hin, hexec]
  exact interruptible_reset rfl hk

/-! No debt to an earlier `Instance` (R181). -/

/-- Settles O25: `RELEASE` leaves no `Instance`, as a reset does, and the one that `INIT` constructs is written out from its
operands alone. -/
theorem releaseForgetsLikeReset : Obligations.ReleaseForgetsLikeReset := by
  obtain ⟨hinit, -⟩ := initConstructsInstance
  refine ⟨fun s x hx => ⟨_, exec_release_of_some hx, rfl, rfl⟩, fun s s' key iv hdr srclen hs hs' hw hh hl => ?_⟩
  exact ⟨_, _, hinit s key iv hdr srclen hs hh hl, hinit s' key iv hdr srclen hs' hh (hw ▸ hl), rfl, rfl⟩

/-! A source that never answers (R191). -/

theorem srcRead_of_silent {src : Source} {rest : List SrcReply} (h : src.script = .silent :: rest) (w : Config.Width)
    (addr n : Nat) : srcRead w addr n src = (none, { src with script := rest }) := by
  simp only [srcRead, h]

/-- Settles O36: the `READ` gets no answer and waits; a wait takes no byte, and a reset ends it. -/
theorem silentSourceBlocks : Obligations.SilentSourceBlocks := by
  refine ⟨fun s x count rest hx hc hscript => ?_, fun s bs hp hin => step_bytes_of_waiting hp hin,
    fun s bs k rest hp hin => step_reset_of_waiting hp hin⟩
  rw [exec_read_of_clamp_ne_zero hx hc, srcRead_of_silent hscript]
  rfl

end Sys2Proof.Machine
